-- ==== Sys2Proof/Word.lean ====
section
/-! DEFINITION. The words of the block: a 32-bit data word, a 40-bit command word (30_encoding R48)
and a 36-bit response word (R49). -/

namespace Sys2Proof

/-- A 32-bit word: a binary32 value, a readback word or the data of a response (00_scope R12). -/
abbrev Word := BitVec 32

/-- A command word `c` (30_encoding R48). -/
abbrev CommandWord := BitVec 40

/-- A response word `r` (30_encoding R49). -/
abbrev ResponseWord := BitVec 36

end Sys2Proof
end

