-- ==== Sys2Proof/Syntax.lean ====
section
/-! DEFINITION. The six commands (30_encoding R52), one constructor per row of the opcode map. -/

namespace Sys2Proof

/-- A decoded command (30_encoding R56). -/
inductive Instr where
  /-- INIT: construct the oscillator with sample rate `w` (41_oscillator R76). -/
  | init (w : Word)
  /-- SETF: set the frequency `w` (41_oscillator R78). -/
  | setf (w : Word)
  /-- NEXT: produce one sample (41_oscillator R85). -/
  | next
  /-- RESOLVE: look up the note `c0 c1` under the standard `std` (42_note_registry R97). -/
  | resolve (std : BitVec 16) (c1 c0 : BitVec 8)
  /-- RD: read the readback register `idx` (43_sink_and_sequencer R107). -/
  | rd (idx : BitVec 4)
  /-- RDTAB: read the wavetable entry `tidx` (40_wavetable R74). -/
  | rdtab (tidx : BitVec 16)
deriving DecidableEq, Repr

end Sys2Proof
end

