-- ==== Sys2Proof/WellFormed.lean ====
section
/-! DEFINITION. Which terms of Instr stand for a command word. -/

namespace Sys2Proof

/-- The one operand with reserved values is RD's index: "`IDX` must be at most 6" (30_encoding R54).
Every other operand fills its field (R50). -/
def Instr.wellFormed : Instr → Bool
  | .init _ => true
  | .setf _ => true
  | .next => true
  | .resolve _ _ _ => true
  | .rd idx => decide (idx.toNat ≤ 6)
  | .rdtab _ => true

end Sys2Proof
end

