-- ==== Sys2Proof/Decode.lean ====
section
/-! DEFINITION. The decoder (30_encoding R56), total on the 40-bit words, and after it the encoder
(R48, R50, R52). -/

namespace Sys2Proof

/-- Why a word selects no command (30_encoding R53, R54). Each of them executes as Illegal (R53). -/
inductive DecodeError where
  /-- `RSV != 0` (R54). -/
  | reservedBits
  /-- `OP` is 0x0 or 0x7 to 0xF (R53). -/
  | reservedOpcode
  /-- A must-be-0 part of `ARG` is not 0 (R54). -/
  | reservedOperandBits
  /-- `RD` with `IDX >= 7` (R54). -/
  | reservedIndex
deriving DecidableEq, Repr

/-- `OP = c[39:36]` (R48). -/
def opField (c : CommandWord) : BitVec 4 := c.extractLsb' 36 4

/-- `RSV = c[35:32]` (R48). -/
def rsvField (c : CommandWord) : BitVec 4 := c.extractLsb' 32 4

/-- `ARG = c[31:0]` (R48). -/
def argField (c : CommandWord) : Word := c.extractLsb' 0 32

/-- F-NONE: `ARG` must be 0 (R50). -/
def decodeNext (arg : Word) : Except DecodeError Instr :=
  if arg = 0 then .ok .next else .error .reservedOperandBits

/-- F-NOTE: `STD = ARG[31:16]`, `C1 = ARG[15:8]`, `C0 = ARG[7:0]` (R50). -/
def decodeResolve (arg : Word) : Except DecodeError Instr :=
  .ok (.resolve (arg.extractLsb' 16 16) (arg.extractLsb' 8 8) (arg.extractLsb' 0 8))

/-- F-REG: `ARG[31:4]` must be 0, `IDX = ARG[3:0]` at most 6 (R50, R54). -/
def decodeRd (arg : Word) : Except DecodeError Instr :=
  if arg.extractLsb' 4 28 ≠ 0 then .error .reservedOperandBits
  else if (arg.extractLsb' 0 4).toNat ≤ 6 then .ok (.rd (arg.extractLsb' 0 4))
  else .error .reservedIndex

/-- F-IDX: `ARG[31:16]` must be 0, `TIDX = ARG[15:0]` (R50). -/
def decodeRdtab (arg : Word) : Except DecodeError Instr :=
  if arg.extractLsb' 16 16 ≠ 0 then .error .reservedOperandBits
  else .ok (.rdtab (arg.extractLsb' 0 16))

/-- The decoder of R56. -/
def decode (c : CommandWord) : Except DecodeError Instr :=
  if rsvField c ≠ 0 then .error .reservedBits
  else if opField c = 0x1 then .ok (.init (argField c))
  else if opField c = 0x2 then .ok (.setf (argField c))
  else if opField c = 0x3 then decodeNext (argField c)
  else if opField c = 0x4 then decodeResolve (argField c)
  else if opField c = 0x5 then decodeRd (argField c)
  else if opField c = 0x6 then decodeRdtab (argField c)
  else .error .reservedOpcode

/-- The opcode of a command (R52). -/
def opcode : Instr → BitVec 4
  | .init _ => 0x1
  | .setf _ => 0x2
  | .next => 0x3
  | .resolve _ _ _ => 0x4
  | .rd _ => 0x5
  | .rdtab _ => 0x6

/-- The `ARG` field of a command, by its format (R50). -/
def operandWord : Instr → Word
  | .init w => w
  | .setf w => w
  | .next => 0
  | .resolve std c1 c0 => std ++ c1 ++ c0
  | .rd idx => 0#28 ++ idx
  | .rdtab tidx => 0#16 ++ tidx

/-- The command word of the three fields `OP`, `RSV`, `ARG` (R48). -/
def commandWord (op rsv : BitVec 4) (arg : Word) : CommandWord := op ++ rsv ++ arg

/-- The command word of a command, with `RSV` = 0 (R48). -/
def encode (i : Instr) : CommandWord := commandWord (opcode i) 0 (operandWord i)

/-- What the decoder reads from an opcode-table row's word: the table numbers a command's bits as R48
does, bit 0 least significant (log 12); bits at and above `nbits` are 0. -/
def decodeTableWord (nbits w : Nat) : Option Instr :=
  match decode (BitVec.ofNat 40 (w % 2 ^ nbits)) with
  | .ok i => some i
  | .error _ => none

end Sys2Proof
end

