-- ==== Sys2Proof/Machine/Float.lean ====
section
/-! DEFINITION. The number format (00_scope R12, R13) and the arithmetic of 41_oscillator R75.

Every finite binary32 value is an integer multiple of 2^(-149). The machine computes with that
integer (`units`), exactly, and narrows once at the end (`rndMag`); `val` is R12's decoded value as
a rational, and `rnd` R13's rounding of a rational, against which the statements hold the machine. -/

namespace Sys2Proof.F32

/-- `s = w[31]` (R12). -/
def sign (w : Word) : Bool := w.msb

/-- `e = w[30:23]` (R12). -/
def exponent (w : Word) : Nat := (w.extractLsb' 23 8).toNat

/-- `m = w[22:0]` (R12). -/
def fraction (w : Word) : Nat := (w.extractLsb' 0 23).toNat

/-- `fin(w)`: the word is neither an infinity nor a NaN (R12). -/
def fin (w : Word) : Bool := exponent w != 255

/-- R12's decoded value of a finite word (`fin w`), as an exact rational: the normal and subnormal
lines of R12. `decoded` below says what every word decodes to. -/
def val (w : Word) : ℚ :=
  (if sign w then -1 else 1) *
    (if exponent w = 0 then (2 : ℚ) ^ (-126 : ℤ) * (fraction w / 2 ^ 23)
     else (2 : ℚ) ^ ((exponent w : ℤ) - 127) * (1 + fraction w / 2 ^ 23))

/-- What a word decodes to (R12): a real, an infinity of either sign, or a NaN. +0 and -0 are both the
real 0. -/
inductive Decoded where
  | real (x : ℚ)
  | infinity (neg : Bool)
  | nan
deriving DecidableEq, Repr

/-- `val(w)` of R12 for every word: by `e = 255` and `m` an infinity or a NaN, else a real. -/
def decoded (w : Word) : Decoded :=
  if exponent w = 255 then
    if fraction w = 0 then .infinity (sign w) else .nan
  else .real (val w)

/-- How many units of 2^(-149) the real 1 has. -/
def one : Nat := 2 ^ 149

/-- `|val(w)|` in units of 2^(-149), for a finite word (R12). -/
def magUnits (w : Word) : Nat :=
  if exponent w = 0 then fraction w else 2 ^ (exponent w - 1) * (2 ^ 23 + fraction w)

/-- `val(w)` in units of 2^(-149), for a finite word (R12). -/
def units (w : Word) : Int :=
  if sign w then -(magUnits w : Int) else magUnits w

/-- The magnitude bits of an infinity: exponent 255, fraction 0. -/
def infMag : Nat := 0x7F800000

/-- The natural number nearest to `num / den`, ties to the even one. -/
def roundEven (num den : Nat) : Nat :=
  let q := num / den
  let r := num % den
  if den < 2 * r ∨ (2 * r = den ∧ q % 2 = 1) then q + 1 else q

/-- The spacing of binary32 values around `num / den` units is `2 ^ spacingExp num den` units: 0 up to
2^24 units (the subnormals and the first two binades), else what leaves 24 significant bits. -/
def spacingExp (num den : Nat) : Nat := Nat.log2 (num / den) - 23

/-- R13 on a magnitude of `num / den` units: the bits [30:0] of the nearest word, ties to the word
whose bit 0 is 0, overflow to the infinity. The bits of a finite magnitude count the binary32 values
below it, so a carry out of the significand runs into the exponent by itself. -/
def rndMag (num den : Nat) : Nat :=
  let e := spacingExp num den
  min (2 ^ 23 * e + roundEven num (2 ^ e * den)) infMag

/-- The word of a sign and magnitude bits. -/
def withSign (neg : Bool) (mag : Nat) : Word :=
  BitVec.ofNat 32 (if neg then 2 ^ 31 + mag else mag)

/-- `rnd(x)` of R13 for an exact rational `x`; an `x` that is exactly zero gives +0
(log 8, log 9). -/
def rnd (x : ℚ) : Word := withSign (decide (x.num < 0)) (rndMag (one * x.num.natAbs) x.den)

/-- `w = rnd(x)` for an exact real `x`, in the words of R13: the sign of `x` (+0 for 0), the infinity
from `2^128 - 2^103` on, else the nearest finite word, a tie going to the word whose bit 0 is 0. -/
def Rounds (x : ℝ) (w : Word) : Prop :=
  (sign w = true ↔ x < 0) ∧
  (2 ^ 128 - 2 ^ 103 ≤ |x| → decoded w = .infinity (sign w)) ∧
  (|x| < 2 ^ 128 - 2 ^ 103 → fin w = true ∧
    ∀ v : Word, fin v = true →
      |x - val w| ≤ |x - val v| ∧
      (val v ≠ val w → |x - val v| = |x - val w| → w.getLsbD 0 = false))

/-- `rnd` of `z` units of 2^(-149). -/
def rndUnits (z : Int) : Word := withSign (decide (z < 0)) (rndMag z.natAbs 1)

/-- `rnd(a + b)` (R75); a sum of two -0 operands is -0, any other zero sum is +0 (R13). -/
def add (a b : Word) : Word :=
  let z := units a + units b
  if z = 0 ∧ sign a ∧ sign b then 0x80000000 else rndUnits z

/-- `rnd(a * b)` (R75); a zero product of operands of opposite signs is -0 (R13). -/
def mul (a b : Word) : Word :=
  withSign (sign a != sign b) (rndMag (magUnits a * magUnits b) one)

/-- `rnd(a * n)` for the exact positive integer `n` (R75, R80). -/
def mulNat (a : Word) (n : Nat) : Word := withSign (sign a) (rndMag (magUnits a * n) 1)

/-- `rnd(a / b)` (R75), only with `b` finite and greater than 0; a zero quotient of operands of
opposite signs is -0 (R13). -/
def div (a b : Word) : Word :=
  withSign (sign a != sign b) (rndMag (one * magUnits a) (magUnits b))

/-- `rnd(a - n)` for the exact integer `n` (R75, R85); a zero difference is +0 (R13, log 9). -/
def subNat (a : Word) (n : Nat) : Word := rndUnits (units a - (one * n : Nat))

/-- `rnd(1 - a)` (R75, R85); a zero difference is +0 (R13, log 9). -/
def oneSub (a : Word) : Word := rndUnits (one - units a)

/-- `floor(a)` for `a >= 0` (R75, 00_scope R14). -/
def floorNat (a : Word) : Nat := magUnits a / one

/-- `a mod n` for a finite `a >= 0` and an integer `n > 0` (R75, 00_scope R14): the exact remainder,
which is a binary32 value when `n <= 65536`, so that `rndUnits` does not round it. -/
def modNat (a : Word) (n : Nat) : Word := rndUnits ((magUnits a % (one * n) : Nat) : Int)

/-- `val(w) > 0` (R75: the comparison is on the decoded value), for a finite word. -/
def isPos (w : Word) : Bool := decide (0 < units w)

/-- `val(w) >= 0` (R75: -0 compares equal to +0), for a finite word. -/
def isNonneg (w : Word) : Bool := decide (0 ≤ units w)

end Sys2Proof.F32
end

