-- ==== Sys2Proof/Config.lean ====
section
/-! DEFINITION. The implementation parameters (00_scope R6) and when they are valid (R7). -/

namespace Sys2Proof

/-- A table entry is a finite real in [-1, 1] (00_scope R7). -/
def Config.sampleOk (w : Word) : Bool := F32.fin w && decide (F32.magUnits w ≤ F32.one)

/-- A note entry is a finite real greater than 0 (00_scope R7). -/
def Config.noteOk (w : Word) : Bool := F32.fin w && F32.isPos w

/-- 440.0 as a binary32 word: the entry of note A under standard 440 and DEFAULT_FREQ (00_scope R6). -/
def Config.hz440 : Word := 0x43DC0000

/-- 432.0 as a binary32 word: the entry of note A under standard 432 (00_scope R7). -/
def Config.hz432 : Word := 0x43D80000

/-- The validity check of 00_scope R7; N is the length of the table. -/
def Config.check (table : List Word) (note440 note432 : Vector Word 12) : Bool :=
  decide (2 ≤ table.length ∧ table.length ≤ 65536) && table.all Config.sampleOk
    && note440.toList.all Config.noteOk && note432.toList.all Config.noteOk
    && note440[0] == Config.hz440 && note432[0] == Config.hz432

/-- The configuration record of 00_scope R6. "The block exists only for a valid configuration" (R7):
the record carries the check, so that an invalid one cannot be built. -/
structure Config where
  /-- TABLE[0..N-1] (20_memory R32). -/
  table : List Word
  /-- NOTE_LUT[0], the standard 440, by pitch class (20_memory R36). -/
  note440 : Vector Word 12
  /-- NOTE_LUT[1], the standard 432, by pitch class (20_memory R36). -/
  note432 : Vector Word 12
  /-- The configuration is valid (00_scope R7). -/
  valid : Config.check table note440 note432 = true
deriving DecidableEq, Repr

/-- N: the number of samples in one period (00_scope R6, R7). -/
def Config.N (hw : Config) : Nat := hw.table.length

end Sys2Proof
end

