-- ==== Sys2Proof/Machine/Tables.lean ====
section
/-! DEFINITION. The default contents of the two read-only tables (40_wavetable R69, 42_note_registry
R100) and the default configuration (00_scope R6). -/

namespace Sys2Proof

/-- The first quarter of the default sine, entries 0 to 16 (40_wavetable R69). -/
def sineRise : List Word :=
  [0x00000000, 0x3DC8BD36, 0x3E47C5C2, 0x3E94A031, 0x3EC3EF15, 0x3EF15AEA, 0x3F0E39DA, 0x3F226799] ++
  [0x3F3504F3, 0x3F45E403, 0x3F54DB31, 0x3F61C598, 0x3F6C835E, 0x3F74FA0B, 0x3F7B14BE, 0x3F7EC46D] ++
  [0x3F800000]

/-- Entries 17 to 31 of the default sine (R69). -/
def sineFall : List Word :=
  [0x3F7EC46D, 0x3F7B14BE, 0x3F74FA0B, 0x3F6C835E, 0x3F61C598, 0x3F54DB31, 0x3F45E403] ++
  [0x3F3504F3, 0x3F226799, 0x3F0E39DA, 0x3EF15AEA, 0x3EC3EF15, 0x3E94A031, 0x3E47C5C2, 0x3DC8BD36]

/-- Entries 32 to 48 of the default sine (R69). -/
def sineBelow : List Word :=
  [0x00000000, 0xBDC8BD36, 0xBE47C5C2, 0xBE94A031, 0xBEC3EF15, 0xBEF15AEA, 0xBF0E39DA, 0xBF226799] ++
  [0xBF3504F3, 0xBF45E403, 0xBF54DB31, 0xBF61C598, 0xBF6C835E, 0xBF74FA0B, 0xBF7B14BE, 0xBF7EC46D] ++
  [0xBF800000]

/-- Entries 49 to 63 of the default sine (R69). -/
def sineReturn : List Word :=
  [0xBF7EC46D, 0xBF7B14BE, 0xBF74FA0B, 0xBF6C835E, 0xBF61C598, 0xBF54DB31, 0xBF45E403] ++
  [0xBF3504F3, 0xBF226799, 0xBF0E39DA, 0xBEF15AEA, 0xBEC3EF15, 0xBE94A031, 0xBE47C5C2, 0xBDC8BD36]

/-- The default table, N = 64: the sine correctly rounded to binary32 (40_wavetable R69). -/
def defaultTable : List Word := sineRise ++ sineFall ++ sineBelow ++ sineReturn

/-- The default note frequencies under standard 440, pitch classes A to G# (42_note_registry R100). -/
def defaultNote440 : Vector Word 12 :=
  #v[0x43DC0000, 0x43E9147B, 0x43F6F0A4, 0x4382D0A4, 0x438A970A, 0x4392D47B,
     0x439B90A4, 0x43A4D0A4, 0x43AE9D71, 0x43B8FEB8, 0x43C40000, 0x43CFA666]

/-- The default note frequencies under standard 432, pitch classes A to G# (42_note_registry R100). -/
def defaultNote432 : Vector Word 12 :=
  #v[0x43D80000, 0x43E4D852, 0x43F27333, 0x43806F5C, 0x438811EC, 0x43902A3D,
     0x4398BC29, 0x43A1D0A4, 0x43AB70A4, 0x43B5A28F, 0x43C06F5C, 0x43CBE000]

/-- The default configuration of 00_scope R6. -/
def defaultConfig : Config where
  table := defaultTable
  note440 := defaultNote440
  note432 := defaultNote432
  valid := by decide +kernel

end Sys2Proof
end

