-- ==== Sys2Proof/Machine/State.lean ====
section
/-! DEFINITION. The state of the block (10_state R15), its ports, and reset (R30). -/

namespace Sys2Proof.Machine

/-- The status codes of a response (60_exceptions R123); codes 5 to 15 are never produced (R129). -/
inductive Status where
  /-- Code 0: the command did what its rule says (R124). -/
  | ok
  /-- Code 1: an argument is at fault, the data word names it (R125). -/
  | invalidArgument
  /-- Code 2: a warning, the data word is the fallback frequency (R126). -/
  | unknownNote
  /-- Code 3: the command needs an oscillator and CFG = 0 (R127). -/
  | notConfigured
  /-- Code 4: the command word selects no command (R128). -/
  | illegalCommand
deriving DecidableEq, Repr

/-- The causes of INVALID_ARGUMENT (60_exceptions R125). -/
inductive Cause where
  /-- Cause 1, raised by INIT (41_oscillator R77). -/
  | badSampleRate
  /-- Cause 2, only at configuration time (40_wavetable R67). -/
  | badTableLength
  /-- Cause 3, raised by SETF (41_oscillator R79). -/
  | badFrequency
  /-- Cause 4, raised by RESOLVE (42_note_registry R99). -/
  | unsupportedStandard
  /-- Cause 5, raised by SETF (41_oscillator R81). -/
  | incrementOverflow
  /-- Cause 6, raised by RDTAB (40_wavetable R74). -/
  | badIndex
deriving DecidableEq, Repr

/-- One response: STATUS and DATA (30_encoding R49). -/
structure Response where
  status : Status
  data : Word
deriving DecidableEq, Repr

/-- What the host does at the block's ports: it presents a command word, or asserts reset between two
commands (00_scope R10, 70_reset_and_hazards R141). -/
inductive PortEvent where
  | command (c : CommandWord)
  | reset
deriving DecidableEq, Repr

/-- The state. `cfg`, `err`, `sr`, `phase` and `inc` are the block's whole state (10_state R15); `hw`
is its configuration, which no step writes; `port` and `responses` stand for the host's side of the
ports (log 1, 2, 3). -/
structure State where
  /-- The implementation parameters (00_scope R6). -/
  hw : Config
  /-- CFG: an oscillator exists (10_state R19). -/
  cfg : Bool
  /-- ERR: an error was seen since reset, sticky (10_state R20). -/
  err : Bool
  /-- The sample rate, binary32 (10_state R16). -/
  sr : Word
  /-- The phase, binary32 (10_state R17). -/
  phase : Word
  /-- The phase increment, binary32 (10_state R18). -/
  inc : Word
  /-- The host's events still to be presented, oldest first (the model's own field, log 2). -/
  port : List PortEvent
  /-- The responses sent, oldest first (the model's own field, log 3). -/
  responses : List Response
deriving DecidableEq, Repr

/-- Stops of the model in states no run reaches from reset (log 7). Nothing the host sends raises one
in a state that meets 10_state R21 (60_exceptions R140: "No input makes the block hang"). -/
inductive Fault where
  /-- Raised by SETF or NEXT when a register it computes with holds a word outside 10_state R21, on
  which 41_oscillator R75 defines no operation. Safe: the model stops where the block never is. -/
  | registerOutsideInvariant
  /-- Raised by NEXT when `floor(phase)` is not below N: the wavetable has no such location
  (20_memory R33). Safe: the model stops where the block never is. -/
  | noTableEntry
deriving DecidableEq, Repr

/-- Refusals. No command of this model is refused. -/
inductive Refusal where
  /-- Raised by exec's arm of an instruction that has no meaning yet; no arm does. Safe. -/
  | notModelled (mnemonic : String)
deriving DecidableEq, Repr

/-- The machine right after reset: 10_state R30, with the default configuration of 00_scope R6, nothing
presented by the host and no response sent. -/
def State.reset : State where
  hw := defaultConfig
  cfg := false
  err := false
  sr := 0x00000000
  phase := 0x00000000
  inc := 0x00000000
  port := []
  responses := []

end Sys2Proof.Machine
end

