-- ==== Sys2Proof/Machine/Flags.lean ====
section
/-! DEFINITION. The status and cause codes (60_exceptions R123, R125), the two flags (10_state R19,
R20) and the words built from them. -/

namespace Sys2Proof.Machine

/-- The numeric status codes (60_exceptions R123). -/
def Status.code : Status → BitVec 4
  | .ok => 0
  | .invalidArgument => 1
  | .unknownNote => 2
  | .notConfigured => 3
  | .illegalCommand => 4

/-- The column "sets ERR" of 60_exceptions R123. -/
def Status.setsErr : Status → Bool
  | .ok => false
  | .invalidArgument => true
  | .unknownNote => false
  | .notConfigured => true
  | .illegalCommand => true

/-- The cause numbers (60_exceptions R125), as the data word of a response. -/
def Cause.code : Cause → Word
  | .badSampleRate => 1
  | .badTableLength => 2
  | .badFrequency => 3
  | .unsupportedStandard => 4
  | .incrementOverflow => 5
  | .badIndex => 6

/-- The response word `{STATUS[3:0], DATA[31:0]}` (30_encoding R49). -/
def Response.word (r : Response) : ResponseWord := r.status.code ++ r.data

/-- The STATUS readback word: bit 0 CFG, bit 1 ERR, bits 31:2 zero (10_state R28). -/
def statusWord (cfg err : Bool) : Word := 0#30 ++ BitVec.ofBool err ++ BitVec.ofBool cfg

end Sys2Proof.Machine
end

