-- ==== Sys2Proof/Machine/Ops.lean ====
section
/-! DEFINITION. The named operations the commands share: answering, raising an error (the block's only
"exception", 60_exceptions R134), reset, and the reads of tables and registers. -/

namespace Sys2Proof.Machine

/-- What a step or a meaning answers. -/
abbrev Result := Host.Outcome State Fault Refusal

/-- Go on with `f` from the next state; a stop stays a stop. -/
def andThen (o : Result) (f : State → Result) : Result :=
  match o with
  | .next s => f s
  | .fault r => .fault r
  | .refused r => .refused r

/-- `respond(status, data)`: emit one response word (00_scope R14, 30_encoding R49). -/
def respond (st : Status) (data : Word) (s : State) : State :=
  { s with responses := s.responses ++ [⟨st, data⟩] }

/-- `raise <Status>(cause)`: set ERR and respond, nothing else (00_scope R14). It is not a trap: no
state is saved, no mode changes and control goes nowhere, so there is no return from it either
(60_exceptions R134, R135). -/
def raise (st : Status) (data : Word) (s : State) : State :=
  respond st data { s with err := true }

/-- `raise INVALID_ARGUMENT(cause)` (60_exceptions R125). -/
def raiseArgument (c : Cause) (s : State) : State := raise .invalidArgument c.code s

/-- `raise NOT_CONFIGURED(0)` (60_exceptions R127). -/
def raiseNotConfigured (s : State) : State := raise .notConfigured 0 s

/-- What a word that selects no command does: "changes no state except `ERR <- 1` and answers
`ILLEGAL_COMMAND` with `DATA` = 0" (30_encoding R53). -/
def raiseIllegal (s : State) : State := raise .illegalCommand 0 s

/-- RESET: the five items of state take their reset values, no response, the tables stay
(70_reset_and_hazards R141). -/
def resetBlock (s : State) : State :=
  { s with cfg := false, err := false, sr := 0x00000000, phase := 0x00000000, inc := 0x00000000 }

/-- `MemRead(a, 1)`: the wavetable has the locations 0 to N-1 (20_memory R32, R33). -/
def memRead (hw : Config) (a : Nat) : Option Word := hw.table[a]?

/-- A supported tuning standard: the half `s` of the note table (30_encoding R58). -/
inductive Standard where
  | hz440
  | hz432
deriving DecidableEq, Repr

/-- `LutRead(s, p)` (20_memory R37). -/
def lutRead (hw : Config) (s : Standard) (p : Fin 12) : Word :=
  match s with
  | .hz440 => hw.note440[p]
  | .hz432 => hw.note432[p]

/-- The response to the command executed last, if any. -/
def lastResponse (s : State) : Option Response := s.responses.getLast?

end Sys2Proof.Machine
end

