-- ==== Sys2Proof/Machine/Operands.lean ====
section
/-! DEFINITION. The operands and their checks: the real operands of INIT and SETF (41_oscillator R76,
R79), the tuning standard and the note name of RESOLVE (30_encoding R57, R58), and the registers a
command computes with (41_oscillator R75). -/

namespace Sys2Proof.Machine

/-- INIT's check: `fin(W) and val(W) > 0` (41_oscillator R76). -/
def sampleRateOk (w : Word) : Bool := F32.fin w && F32.isPos w

/-- SETF's check: `fin(W) and val(W) >= 0` (41_oscillator R78, R79). -/
def frequencyOk (w : Word) : Bool := F32.fin w && F32.isNonneg w

/-- SETF's divisor: R75 defines the division only by a finite word greater than 0. -/
def divisorOk (w : Word) : Bool := F32.fin w && F32.isPos w

/-- NEXT's operands `phase` and `inc`: R75 defines its operations on finite words, its floor and its
modulo on a value at or above 0. -/
def addendOk (w : Word) : Bool := F32.fin w && F32.isNonneg w

/-- `STD` = 440 or 432; any other value is an unsupported standard (30_encoding R58). -/
def standardOf (std : BitVec 16) : Option Standard :=
  if std = 440 then some .hz440
  else if std = 432 then some .hz432
  else none

/-- The pitch class of the name `C0 C1`, matched exactly; any other pair is unrecognised
(30_encoding R57, the column ARG[15:0]). -/
def pitchClass (c0 c1 : BitVec 8) : Option (Fin 12) :=
  if c1 ++ c0 = 0x0041#16 then some 0
  else if c1 ++ c0 = 0x2341#16 then some 1
  else if c1 ++ c0 = 0x0042#16 then some 2
  else if c1 ++ c0 = 0x0043#16 then some 3
  else if c1 ++ c0 = 0x2343#16 then some 4
  else if c1 ++ c0 = 0x0044#16 then some 5
  else if c1 ++ c0 = 0x2344#16 then some 6
  else if c1 ++ c0 = 0x0045#16 then some 7
  else if c1 ++ c0 = 0x0046#16 then some 8
  else if c1 ++ c0 = 0x2346#16 then some 9
  else if c1 ++ c0 = 0x0047#16 then some 10
  else if c1 ++ c0 = 0x2347#16 then some 11
  else none

end Sys2Proof.Machine
end

