-- ==== Sys2Proof/Machine/NoteRegistry.lean ====
section
/-! DEFINITION. The note registry: RESOLVE (42_note_registry R97). -/

namespace Sys2Proof.Machine

/-- DEFAULT_FREQ: the frequency answered for an unrecognised name, 440.0 under either standard
(42_note_registry R101). -/
def defaultFreq : Word := 0x43DC0000

/-- RESOLVE (42_note_registry R97): the standard is checked first and strictly (R99), an unrecognised
name falls back with a warning that sets no flag (R101). It needs no oscillator. -/
def execResolve (std : BitVec 16) (c1 c0 : BitVec 8) (s : State) : Result :=
  match standardOf std with
  | none => .next (raiseArgument .unsupportedStandard s)
  | some h =>
    match pitchClass c0 c1 with
    | none => .next (respond .unknownNote defaultFreq s)
    | some p => .next (respond .ok (lutRead s.hw h p) s)

end Sys2Proof.Machine
end

