-- ==== Sys2Proof/Machine/Oscillator.lean ====
section
/-! DEFINITION. The oscillator: INIT, SETF and NEXT (41_oscillator). -/

namespace Sys2Proof.Machine

/-- The oscillator a successful INIT constructs: `sr` = W, phase and increment +0, CFG = 1, as one
update; ERR is left (41_oscillator R76). -/
def construct (w : Word) (s : State) : State :=
  { s with sr := w, phase := 0x00000000, inc := 0x00000000, cfg := true }

/-- INIT (41_oscillator R76); a failed one clears CFG and keeps the registers (R77;
log 11). -/
def execInit (w : Word) (s : State) : Result :=
  if sampleRateOk w then .next (respond .ok 0 (construct w s))
  else .next (raiseArgument .badSampleRate { s with cfg := false })

/-- The phase-increment encoder `rnd(rnd(freq * N) / sr)` (41_oscillator R80); none when the product
or the quotient is not finite (R81). -/
def increment (N : Nat) (freq sr : Word) : Option Word :=
  let m := F32.mulNat freq N
  if F32.fin m then
    let q := F32.div m sr
    if F32.fin q then some q else none
  else none

/-- SETF (41_oscillator R78): the checks in its order, then `inc`. -/
def execSetf (w : Word) (s : State) : Result :=
  if !s.cfg then .next (raiseNotConfigured s)
  else if !frequencyOk w then .next (raiseArgument .badFrequency s)
  else if !divisorOk s.sr then .fault .registerOutsideInvariant
  else match increment s.hw.N w s.sr with
    | none => .next (raiseArgument .incrementOverflow s)
    | some q => .next (respond .ok 0 { s with inc := q })

/-- The index at or below the phase, `i0 = floor(phase)` (41_oscillator R86). -/
def index0 (phase : Word) : Nat := F32.floorNat phase

/-- The index after it, `i1 = (i0 + 1) mod N` (41_oscillator R86, R88). -/
def index1 (N : Nat) (phase : Word) : Nat := (index0 phase + 1) % N

/-- The linear interpolation between the entries `t0` and `t1`, in the order written and with four
roundings, none fused (41_oscillator R86). -/
def interpolate (phase t0 t1 : Word) : Word :=
  let frac := F32.subNat phase (index0 phase)
  let w0 := F32.oneSub frac
  let p0 := F32.mul w0 t0
  let p1 := F32.mul frac t1
  F32.add p0 p1

/-- The sample at the phase: two wavetable reads and the interpolation (41_oscillator R85); none when
an address is not below N. -/
def sample (hw : Config) (phase : Word) : Option Word :=
  match memRead hw (index0 phase), memRead hw (index1 hw.N phase) with
  | some t0, some t1 => some (interpolate phase t0 t1)
  | _, _ => none

/-- The phase advance: the sum is rounded first, then reduced exactly modulo N (41_oscillator R87). -/
def advance (N : Nat) (phase inc : Word) : Word := F32.modNat (F32.add phase inc) N

/-- NEXT (41_oscillator R85): the sample at the phase before the advance, then the advance. -/
def execNext (s : State) : Result :=
  if !s.cfg then .next (raiseNotConfigured s)
  else if !(addendOk s.phase && addendOk s.inc) then .fault .registerOutsideInvariant
  else match sample s.hw s.phase with
    | none => .fault .noTableEntry
    | some out => .next (respond .ok out { s with phase := advance s.hw.N s.phase s.inc })

end Sys2Proof.Machine
end

