-- ==== Sys2Proof/Machine/Readback.lean ====
section
/-! DEFINITION. The readback file (10_state R24) and RD (43_sink_and_sequencer R107). -/

namespace Sys2Proof.Machine

/-- The readback registers (10_state R24). -/
inductive ReadReg where
  | channels
  | sampleRate
  | remaining
  | status
  | phase
  | increment
  | tableLen
deriving DecidableEq, Repr

/-- The register of a readback index; 7 to 15 are reserved (10_state R24). -/
def readRegOf (idx : BitVec 4) : Option ReadReg :=
  if idx = 0 then some .channels
  else if idx = 1 then some .sampleRate
  else if idx = 2 then some .remaining
  else if idx = 3 then some .status
  else if idx = 4 then some .phase
  else if idx = 5 then some .increment
  else if idx = 6 then some .tableLen
  else none

/-- The column "needs CFG = 1" of 10_state R24. -/
def ReadReg.needsOscillator : ReadReg → Bool
  | .channels => false
  | .sampleRate => true
  | .remaining => true
  | .status => false
  | .phase => true
  | .increment => true
  | .tableLen => false

/-- The column "value" of 10_state R24. -/
def readReg (r : ReadReg) (s : State) : Word :=
  match r with
  | .channels => 0x00000001
  | .sampleRate => s.sr
  | .remaining => 0xFFFFFFFF
  | .status => statusWord s.cfg s.err
  | .phase => s.phase
  | .increment => s.inc
  | .tableLen => BitVec.ofNat 32 s.hw.N

/-- RD (43_sink_and_sequencer R107); a reserved index, which no word
decodes to, answers ILLEGAL_COMMAND (10_state R24; log 6). -/
def execRd (idx : BitVec 4) (s : State) : Result :=
  match readRegOf idx with
  | none => .next (raiseIllegal s)
  | some r =>
    if r.needsOscillator && !s.cfg then .next (raiseNotConfigured s)
    else .next (respond .ok (readReg r s) s)

end Sys2Proof.Machine
end

