-- ==== Sys2Proof/Machine/Wavetable.lean ====
section
/-! DEFINITION. The wavetable: its construction (40_wavetable R67), the block built over it (R67,
70_reset_and_hazards R145) and RDTAB (R74). -/

namespace Sys2Proof.Machine

/-- WT_NEW(N, g), the configuration-time construction of a table from a real-valued generator `g`,
gives `r`: BAD_TABLE_LENGTH for a length below 2 or above 65536, else `TABLE[n] <- rnd(g(n, N))` for
every `n` below N (40_wavetable R67). -/
def WtNew (N : Nat) (g : Nat → Nat → ℝ) (r : Except Cause (List Word)) : Prop :=
  match r with
  | .error c => (N < 2 ∨ 65536 < N) ∧ c = .badTableLength
  | .ok table => 2 ≤ N ∧ N ≤ 65536 ∧ table.length = N ∧
      ∀ n w, table[n]? = some w → F32.Rounds (g n N) w

/-- The table is the fill by the one generator the source defines, `sin(2π·n/N)` (40_wavetable R68,
R70). -/
def IsSineTable (N : Nat) (table : List Word) : Prop :=
  WtNew N (fun n N => Real.sin (2 * Real.pi * n / N)) (.ok table)

/-- A block exists over the configuration `hw` whose table WT_NEW gives: "its result is the parameter
`TABLE`" (40_wavetable R67). -/
def BuiltFrom (N : Nat) (g : Nat → Nat → ℝ) (hw : Config) : Prop := WtNew N g (.ok hw.table)

/-- The configuration of a table and the two halves of the note table, if it is valid (00_scope R7). -/
def configure (table : List Word) (note440 note432 : Vector Word 12) : Option Config :=
  if h : Config.check table note440 note432 = true then some ⟨table, note440, note432, h⟩ else none

/-- The block of a configuration, in the reset state (70_reset_and_hazards R141, R145). -/
def newBlock (hw : Config) : State := { State.reset with hw := hw }

/-- WT_NEW as a computation, for a rational-valued generator (log 8). -/
def wtNew (N : Nat) (g : Nat → Nat → ℚ) : Except Cause (List Word) :=
  if N < 2 then .error .badTableLength
  else if 65536 < N then .error .badTableLength
  else .ok ((List.range N).map fun n => F32.rnd (g n N))

/-- RDTAB (40_wavetable R74): a read of the entry, BAD_INDEX when the table has no such location. It
needs no oscillator. -/
def execRdtab (tidx : BitVec 16) (s : State) : Result :=
  match memRead s.hw tidx.toNat with
  | none => .next (raiseArgument .badIndex s)
  | some w => .next (respond .ok w s)

end Sys2Proof.Machine
end

