-- ==== Sys2Proof/Machine/Dispatch.lean ====
section
/-! DEFINITION. One arm per command (30_encoding R52). -/

namespace Sys2Proof.Machine

def exec (i : Instr) (s : State) : Host.Outcome State Fault Refusal :=
  match i with
  | .init w => Sys2Proof.Machine.execInit w s
  | .setf w => Sys2Proof.Machine.execSetf w s
  | .next => Sys2Proof.Machine.execNext s
  | .resolve std c1 c0 => Sys2Proof.Machine.execResolve std c1 c0 s
  | .rd idx => Sys2Proof.Machine.execRd idx s
  | .rdtab tidx => Sys2Proof.Machine.execRdtab tidx s

end Sys2Proof.Machine
end

