-- ==== Sys2Proof/Machine/Port.lean ====
section
/-! DEFINITION. What the block does with one event at its ports (30_encoding R56, R60;
70_reset_and_hazards R141). -/

namespace Sys2Proof.Machine

/-- Execute one command word: decode it before any state is looked at (60_exceptions R130), run the
command, and execute a word that selects none as Illegal (30_encoding R56). -/
def runCommand (c : CommandWord) (s : State) : Result :=
  match decode c with
  | .ok i => exec i s
  | .error _ => .next (raiseIllegal s)

/-- Accept one event: a command word with its one response (30_encoding R49), or a reset, which
produces none (70_reset_and_hazards R141). -/
def accept (e : PortEvent) (s : State) : Result :=
  match e with
  | .command c => runCommand c s
  | .reset => .next (resetBlock s)

/-- Accept events one at a time, in order (20_memory R43). -/
def acceptAll : List PortEvent → State → Result
  | [], s => .next s
  | e :: es, s => andThen (accept e s) (acceptAll es)

/-- The command word that the low `nbits` bits of `w` give, the others 0. -/
def tableWord (nbits w : Nat) : CommandWord := BitVec.ofNat 40 (w % 2 ^ nbits)

end Sys2Proof.Machine
end

