-- ==== Sys2Proof/Machine/Step.lean ====
section
/-! DEFINITION. One step: the oldest event the host has pending. -/

namespace Sys2Proof.Machine

/-- The step takes the next event from the port (00_scope R8, 30_encoding R60). With none pending the
block holds its state ("between commands it holds its state unchanged for any length of time",
43_sink_and_sequencer R111; log 4). -/
def step (s : State) : Host.Outcome State Fault Refusal :=
  match s.port with
  | [] => .next s
  | e :: rest => accept e { s with port := rest }

/-- The state in which the host presents the command word next. -/
def State.withFetchWord (s : State) (nbits w : Nat) : State :=
  { s with port := .command (tableWord nbits w) :: s.port }

end Sys2Proof.Machine
end

