-- ==== Sys2Proof/Machine/Assembler.lean ====
section
/-! DEFINITION. The forms of the command notation of 30_encoding R61, as terms, and the event each of
them stands for. It belongs to the host's side of the port (00_scope R10). -/

namespace Sys2Proof.Machine

/-- A `<real>`: a decimal literal `digits * 10 ^ exp`, or `#0x........` for a raw word (R61). -/
inductive RealLiteral where
  | decimal (neg : Bool) (digits : Nat) (exp : Int)
  | raw (w : Word)
deriving DecidableEq, Repr

/-- `ARG = rnd(<real>)` (R61). -/
def RealLiteral.word : RealLiteral → Word
  | .decimal neg digits exp =>
    F32.withSign neg (F32.rndMag (digits * 10 ^ exp.toNat * F32.one) (10 ^ (-exp).toNat))
  | .raw w => w

/-- The 8-bit code of an ASCII character (R57). -/
def charCode (c : Char) : Option (BitVec 8) :=
  if c.toNat < 128 then some (BitVec.ofNat 8 c.toNat) else none

/-- The codes `(C0, C1)` of a note name of one or two ASCII characters; a name that cannot be carried
is presented as the empty name (R57). -/
def nameCodes : List Char → BitVec 8 × BitVec 8
  | [a] =>
    match charCode a with
    | some c0 => (c0, 0)
    | none => (0, 0)
  | [a, b] =>
    match charCode a, charCode b with
    | some c0, some c1 => (c0, c1)
    | _, _ => (0, 0)
  | _ => (0, 0)

/-- The index of a readback register's name (10_state R24). -/
def ReadReg.index : ReadReg → BitVec 4
  | .channels => 0
  | .sampleRate => 1
  | .remaining => 2
  | .status => 3
  | .phase => 4
  | .increment => 5
  | .tableLen => 6

/-- One line of R61's notation. -/
inductive Line where
  | init (r : RealLiteral)
  | setf (r : RealLiteral)
  | next
  | resolve (name : List Char) (std : BitVec 16)
  | rd (r : ReadReg)
  | rdIndex (idx : BitVec 4)
  | rdtab (tidx : BitVec 16)
  | reset
deriving DecidableEq, Repr

/-- The command of a line; `RESET` is none (R61). -/
def Line.command : Line → Option Instr
  | .init r => some (.init r.word)
  | .setf r => some (.setf r.word)
  | .next => some .next
  | .resolve name std => some (.resolve std (nameCodes name).2 (nameCodes name).1)
  | .rd r => some (.rd r.index)
  | .rdIndex idx => some (.rd idx)
  | .rdtab tidx => some (.rdtab tidx)
  | .reset => none

/-- What the host does at the block's ports for a line (R61). -/
def Line.event (l : Line) : PortEvent :=
  match l.command with
  | some i => .command (encode i)
  | none => .reset

end Sys2Proof.Machine
end

