-- ==== Sys2Proof/Machine/Sequencer.lean ====
section
/-! DEFINITION. The host's playback layer over the block: the pseudo-instructions SETN, SEG and PLAY
(30_encoding R62 to R64) and the playback sequencer (43_sink_and_sequencer R116 to R122). None of it is
hardware (00_scope R4); it drives the block through `runCommand` only (log 10). -/

namespace Sys2Proof.Machine

/-- SETN's second command: `SETF #r.DATA` if the response is OK or UNKNOWN_NOTE, else none (30_encoding
R62). -/
def setnSecond : Option Response → Option Instr
  | some ⟨.ok, data⟩ => some (.setf data)
  | some ⟨.unknownNote, data⟩ => some (.setf data)
  | _ => none

/-- Issue a command if there is one. -/
def issue (i : Option Instr) (s : State) : Result :=
  match i with
  | some j => runCommand (encode j) s
  | none => .next s

/-- `SETN "<name>", <std>` (30_encoding R62). -/
def setn (std : BitVec 16) (c1 c0 : BitVec 8) (s : State) : Result :=
  andThen (runCommand (encode (.resolve std c1 c0)) s) fun s1 => issue (setnSecond (lastResponse s1)) s1

/-- `SEG <K>`: K consecutive NEXT commands; `SEG 0` is no command (30_encoding R63). -/
def seg (K : Nat) (s : State) : Result := acceptAll (List.replicate K (.command (encode .next))) s

/-- `round(d * r)`, halves up (43_sink_and_sequencer R118). -/
def roundedLength (d r : ℚ) : Int := (d * r + 1 / 2).floor

/-- A conforming sample count of a segment: `|K - round(d * r)| <= 1` (R118). -/
def inBand (d r : ℚ) (K : Nat) : Bool := decide (((K : Int) - roundedLength d r).natAbs ≤ 1)

/-- A requested duration: positive real seconds, or a sample count (R113). -/
inductive Duration where
  | seconds (d : ℚ)
  | samples (n : Nat)
deriving DecidableEq, Repr

/-- The default sample count of a segment (R118). -/
def Duration.sampleCount (d : Duration) (r : ℚ) : Nat :=
  match d with
  | .seconds t => (roundedLength t r).toNat
  | .samples n => n

/-- PLAY with a sample count K of the host's choosing: SETN followed by SEG K (30_encoding R64). When
SETN stops, the note stops with it (R62 "else stop"; 43_sink_and_sequencer R122 "abort the sequence"). -/
def playSamples (std : BitVec 16) (c1 c0 : BitVec 8) (K : Nat) (s : State) : Result :=
  andThen (runCommand (encode (.resolve std c1 c0)) s) fun s1 =>
    match setnSecond (lastResponse s1) with
    | none => .next s1
    | some j => andThen (runCommand (encode j) s1) (seg K)

/-- `PLAY "<name>", <std>, <d>` at the sample rate `r` the host has configured: K is the sample count of
a segment of that duration (30_encoding R64, 43_sink_and_sequencer R118). -/
def play (std : BitVec 16) (c1 c0 : BitVec 8) (d : Duration) (r : ℚ) (s : State) : Result :=
  playSamples std c1 c0 (d.sampleCount r) s

/-- The sequencer's state per note, Idle or Sounding, with the count of samples that is its elapsed
time (R116, R119). -/
inductive NoteState where
  | idle
  | sounding (drawn total : Nat)
deriving DecidableEq, Repr

/-- `Idle → Sounding` (R117). -/
def NoteState.start (total : Nat) : NoteState := if total = 0 then .idle else .sounding 0 total

/-- One sample emitted; `Sounding → Idle` when the count reaches the requested duration (R120). -/
def NoteState.emitted : NoteState → NoteState
  | .idle => .idle
  | .sounding drawn total => if drawn + 1 < total then .sounding (drawn + 1) total else .idle

/-- The remaining duration the host can report: K minus the samples drawn (R118). -/
def NoteState.remaining : NoteState → Nat
  | .idle => 0
  | .sounding drawn total => total - drawn

/-- How a note gets its oscillator: INIT and SETF, or SETF alone (R117; the source does not choose, 93
U5). -/
inductive NoteStart where
  | fresh (sampleRate : Word)
  | shared
deriving DecidableEq, Repr

/-- The host's reaction to a sink failure: skip the note or abort the sequence (R114, 93 U6). -/
inductive SinkReaction where
  | skipNote
  | abortSequence
deriving DecidableEq, Repr

/-- One note of a sequence: its name codes and the sample count of its segment (R118), with what is
open per note: a fresh or the shared oscillator (R117, 93 U5), how many samples the sink takes before it
fails, none if it does not fail (R114), and the host's reaction to that failure (R114, 93 U6). -/
structure Note where
  c1 : BitVec 8
  c0 : BitVec 8
  count : Nat
  start : NoteStart
  sinkTakes : Option Nat
  react : SinkReaction
deriving DecidableEq, Repr

/-- How the playing of a note ended. -/
inductive NoteEnd where
  /-- All samples of the segment were handed to the sink: end-of-stream (R118). -/
  | finished
  /-- A response was an error of the caller: the host aborts the sequence (R122). -/
  | hardError
  /-- The sink did not take a sample: OutputSinkError, the host's own event (R114). -/
  | sinkFailed
deriving DecidableEq, Repr

/-- The outcome of playing: the block's state, the samples the sink took, oldest first, and the end. -/
structure Played where
  state : State
  samples : List Word
  ended : NoteEnd
deriving DecidableEq, Repr

/-- `repeat K times: NEXT ; hand DATA to the sink` (R122), for a sink that fails after taking the given
number of samples more, or never. `out` holds the samples taken before. -/
def draw : Option Nat → Nat → List Word → State → Host.Outcome Played Fault Refusal
  | _, 0, out, s => .next ⟨s, out, .finished⟩
  | sink, k + 1, out, s =>
    match runCommand (encode .next) s with
    | .fault r => .fault r
    | .refused r => .refused r
    | .next s1 =>
      match lastResponse s1 with
      | some ⟨.ok, data⟩ =>
        match sink with
        | none => draw none k (out ++ [data]) s1
        | some 0 => .next ⟨s1, out, .sinkFailed⟩
        | some (m + 1) => draw (some m) k (out ++ [data]) s1
      | _ => .next ⟨s1, out, .hardError⟩

/-- INIT for a fresh oscillator, nothing for a shared one (R117). -/
def prepare (start : NoteStart) (s : State) : Result :=
  match start with
  | .fresh sampleRate => runCommand (encode (.init sampleRate)) s
  | .shared => .next s

/-- A fresh oscillator exists only after an INIT that answered OK; after a failed one the host "must not
proceed with an oscillator in this state" (70_reset_and_hazards R146). -/
def prepared (start : NoteStart) (answer : Option Response) : Bool :=
  match start, answer with
  | .shared, _ => true
  | .fresh _, some ⟨.ok, _⟩ => true
  | .fresh _, _ => false

/-- A whole note (R117, R122): RESOLVE, abort on a hard error, the oscillator, SETF with the response's
data, then the segment. The model's choices (log 14): a failed INIT of a fresh note issues no SETF and no
NEXT and ends the note as a hard error, which aborts the sequence (R117 is silent, R146 says that the host
must not proceed); after a failed SETF the note goes on to its segment, as R122's pseudocode does. -/
def playNote (std : BitVec 16) (n : Note) (out : List Word) (s : State) :
    Host.Outcome Played Fault Refusal :=
  match runCommand (encode (.resolve std n.c1 n.c0)) s with
  | .fault r => .fault r
  | .refused r => .refused r
  | .next s1 =>
    match setnSecond (lastResponse s1) with
    | none => .next ⟨s1, out, .hardError⟩
    | some j =>
      match prepare n.start s1 with
      | .fault r => .fault r
      | .refused r => .refused r
      | .next s2 =>
        if prepared n.start (lastResponse s2) then
          match runCommand (encode j) s2 with
          | .fault r => .fault r
          | .refused r => .refused r
          | .next s3 => draw n.sinkTakes n.count out s3
        else .next ⟨s2, out, .hardError⟩

/-- A sequence of notes under one tuning standard, exactly one Sounding at a time (R116, R121): a hard
error aborts it, a sink failure skips the note or aborts it, as the note says (R114). -/
def playSequence (std : BitVec 16) : List Note → List Word → State → Host.Outcome Played Fault Refusal
  | [], out, s => .next ⟨s, out, .finished⟩
  | n :: rest, out, s =>
    match playNote std n out s with
    | .fault r => .fault r
    | .refused r => .refused r
    | .next p =>
      match p.ended, n.react with
      | .finished, _ => playSequence std rest p.samples p.state
      | .sinkFailed, .skipNote => playSequence std rest p.samples p.state
      | .sinkFailed, .abortSequence => .next p
      | .hardError, _ => .next p

end Sys2Proof.Machine
end

