-- ==== Sys2Proof/Safety.lean ====
section
/-! DEFINITION. The terms of the claims: the invariants of 10_state R21, what a run is, and when two
states differ only in what no command shows. -/

namespace Sys2Proof.Machine

/-- 10_state R21 (a): no register holds an infinity or a NaN. -/
abbrev RegistersFinite (s : State) : Prop :=
  F32.fin s.sr = true ∧ F32.fin s.phase = true ∧ F32.fin s.inc = true

/-- 10_state R21 (b): if CFG = 1 then `val(sr) > 0`. -/
abbrev SampleRatePositive (s : State) : Prop := s.cfg = true → 0 < F32.val s.sr

/-- 10_state R21 (c): `val(inc) >= 0`; the word may be -0, and no other negative-signed word occurs. -/
abbrev IncrementNonneg (s : State) : Prop :=
  0 ≤ F32.val s.inc ∧ (F32.sign s.inc = true → s.inc = 0x80000000)

/-- 10_state R21 (d): `0 <= val(phase) < N`, and the word of `phase` is never -0. -/
abbrev PhaseInRange (s : State) : Prop :=
  0 ≤ F32.val s.phase ∧ F32.val s.phase < s.hw.N ∧ s.phase ≠ 0x80000000

/-- The invariants of 10_state R21, true between any two commands. -/
structure State.Inv (s : State) : Prop where
  finite : RegistersFinite s
  rate : SampleRatePositive s
  increment : IncrementNonneg s
  phase : PhaseInRange s

/-- A configured oscillator in a state a run can reach. -/
structure State.Ready (s : State) : Prop where
  inv : s.Inv
  configured : s.cfg = true

/-- No caller error has been recorded since reset: the premise of a claim about a run (10_state R20,
60_exceptions R127, R140). -/
abbrev NoErrorRecorded (s : State) : Prop := s.err = false

/-- The word does nothing but set ERR and answer ILLEGAL_COMMAND with data 0 (30_encoding R53,
60_exceptions R128). -/
abbrev AnswersIllegal (c : CommandWord) (s : State) : Prop :=
  accept (.command c) s = .next { s with err := true, responses := s.responses ++ [⟨.illegalCommand, 0⟩] }

/-- `t` is reached from `s` by steps. -/
inductive Reaches : State → State → Prop where
  | refl (s : State) : Reaches s s
  | tail {s t u : State} : Reaches s t → step t = .next u → Reaches s u

/-- `k` steps, ending at the first stop. -/
def steps : Nat → State → Result
  | 0, s => .next s
  | k + 1, s => andThen (step s) (steps k)

/-- Two states with the same configuration, oscillator and CFG: they may differ in ERR and in what the
host has yet to present or has been answered. -/
structure SameOscillator (s t : State) : Prop where
  hw : s.hw = t.hw
  cfg : s.cfg = t.cfg
  sr : s.sr = t.sr
  phase : s.phase = t.phase
  inc : s.inc = t.inc

/-- Two states that differ at most in `sr`, `phase` and `inc`, and in these only while CFG = 0
(10_state R31). -/
structure SameButHidden (s t : State) : Prop where
  hw : s.hw = t.hw
  cfg : s.cfg = t.cfg
  err : s.err = t.err
  port : s.port = t.port
  responses : s.responses = t.responses
  shown : s.cfg = true → s.sr = t.sr ∧ s.phase = t.phase ∧ s.inc = t.inc

/-- The sample a command answers: the data of an OK response to NEXT (43_sink_and_sequencer R108). -/
def sampleOf (c : CommandWord) (s : State) : List Word :=
  match decode c, lastResponse s with
  | .ok .next, some ⟨.ok, data⟩ => [data]
  | _, _ => []

/-- The samples a run delivers to the sink, in order (43_sink_and_sequencer R109); a stop ends it. -/
def samplesOf : List PortEvent → State → List Word
  | [], _ => []
  | .reset :: es, s => samplesOf es (resetBlock s)
  | .command c :: es, s =>
    match runCommand c s with
    | .next t => sampleOf c t ++ samplesOf es t
    | .fault _ => []
    | .refused _ => []

end Sys2Proof.Machine
end

