-- ==== Sys2Proof/Certificates/Slice0/Obligations.lean ====
section
/-! DEFINITION. The statements about the model, from the numbered rules of spec/. Each docstring names
the rule it formalises. `State.Inv` is 10_state R21, `State.Ready` is R21 with CFG = 1 (Safety.lean). -/

open Sys2Proof Sys2Proof.Machine

/-! ### Encoding (30_encoding) -/

/-- Decoding an encoded well-formed command gives it back, at every operand value (R48, R50, R56). -/
def Obligations.DecodeOfEncodeIsTheCommand : Prop :=
  ∀ i : Instr, i.wellFormed = true → decode (encode i) = .ok i

/-- A word has one meaning: the command it decodes to encodes to it, and is well formed (R48, R56). -/
def Obligations.EncodeOfDecodeIsTheWord : Prop :=
  ∀ (c : CommandWord) (i : Instr), decode c = .ok i → i.wellFormed = true ∧ encode i = c

/-- The match and mask rows of the opcode map, and the reserved opcodes (R52). -/
def Obligations.DecodeFollowsMatchAndMask : Prop :=
  ∀ c : CommandWord,
    ((∃ w, decode c = .ok (.init w)) ↔ c &&& 0xFF00000000 = 0x1000000000) ∧
    ((∃ w, decode c = .ok (.setf w)) ↔ c &&& 0xFF00000000 = 0x2000000000) ∧
    (decode c = .ok .next ↔ c &&& 0xFFFFFFFFFF = 0x3000000000) ∧
    ((∃ std c1 c0, decode c = .ok (.resolve std c1 c0)) ↔ c &&& 0xFF00000000 = 0x4000000000) ∧
    ((∃ idx, decode c = .ok (.rd idx)) ↔
      c &&& 0xFFFFFFFFF0 = 0x5000000000 ∧ (c &&& 0xF).toNat ≤ 6) ∧
    ((∃ tidx, decode c = .ok (.rdtab tidx)) ↔ c &&& 0xFFFFFF0000 = 0x6000000000) ∧
    (c.toNat / 2 ^ 36 = 0 ∨ 7 ≤ c.toNat / 2 ^ 36 → ∃ e, decode c = .error e)

/-- The operands are the fields of `ARG` with no conversion, scaling or extension, and every word is a
decodable operand of INIT and SETF (R51). -/
def Obligations.OperandsAreTheFieldsOfArg : Prop :=
  (∀ w : Word, decode (commandWord 1 0 w) = .ok (.init w) ∧ decode (commandWord 2 0 w) = .ok (.setf w)) ∧
  ∀ (c : CommandWord) (i : Instr), decode c = .ok i →
    match i with
    | .init w => w.toNat = c.toNat % 2 ^ 32
    | .setf w => w.toNat = c.toNat % 2 ^ 32
    | .next => c.toNat % 2 ^ 32 = 0
    | .resolve std c1 c0 =>
      std.toNat = c.toNat / 2 ^ 16 % 2 ^ 16 ∧ c1.toNat = c.toNat / 2 ^ 8 % 2 ^ 8 ∧ c0.toNat = c.toNat % 2 ^ 8
    | .rd idx => idx.toNat = c.toNat % 2 ^ 4
    | .rdtab tidx => tidx.toNat = c.toNat % 2 ^ 16

/-- One word of each command as 30_encoding R61 and 95_test_vectors T1 write it, and words that select
no command. -/
def Obligations.WordsOfTheSpecDecode : Prop :=
  decode 0x10472C4400 = .ok (.init 0x472C4400) ∧
  decode 0x2043DC0000 = .ok (.setf 0x43DC0000) ∧
  decode 0x3000000000 = .ok .next ∧
  decode 0x4001B02347 = .ok (.resolve 432 0x23 0x47) ∧
  decode 0x5000000004 = .ok (.rd 4) ∧
  decode 0x600000FFFF = .ok (.rdtab 65535) ∧
  decode 0x5000000007 = .error .reservedIndex ∧
  decode 0x1141000000 = .error .reservedBits ∧
  decode 0x6000010000 = .error .reservedOperandBits ∧
  decode 0x0000000000 = .error .reservedOpcode

/-- The lines of 30_encoding R61's table assemble to the words it gives (log 10). -/
def Obligations.AssemblerExamples : Prop :=
  (Line.init (.decimal false 441000 (-1))).event = .command 0x10472C4400 ∧
  (Line.setf (.decimal false 4400 (-1))).event = .command 0x2043DC0000 ∧
  Line.next.event = .command 0x3000000000 ∧
  (Line.resolve ['A'] 440).event = .command 0x4001B80041 ∧
  (Line.rd .phase).event = .command 0x5000000004 ∧
  (Line.rdtab 16).event = .command 0x6000000010 ∧
  Line.reset.event = .reset

/-- A reserved opcode sets ERR, answers ILLEGAL_COMMAND with data 0 and changes nothing else (R53). -/
def Obligations.ReservedOpcodeIsIllegal : Prop :=
  ∀ (c : CommandWord) (s : State), (c.toNat / 2 ^ 36 = 0 ∨ 7 ≤ c.toNat / 2 ^ 36) →
    AnswersIllegal c s

/-- Non-zero reserved bits and RD indices above 6 are treated exactly as a reserved opcode, whatever
the opcode; F-REAL and F-NOTE have no reserved operand bits (R54). -/
def Obligations.ReservedBitsAreIllegal : Prop :=
  ∀ (c : CommandWord) (s : State),
    let op := c.toNat / 2 ^ 36
    let rsv := c.toNat / 2 ^ 32 % 2 ^ 4
    let arg := c.toNat % 2 ^ 32
    (rsv ≠ 0 ∨ (op = 3 ∧ arg ≠ 0) ∨ (op = 5 ∧ (arg / 2 ^ 4 ≠ 0 ∨ 6 < arg % 2 ^ 4)) ∨
        (op = 6 ∧ arg / 2 ^ 16 ≠ 0) →
      AnswersIllegal c s) ∧
    (rsv = 0 → (op = 1 ∨ op = 2 ∨ op = 4) → ∃ i, decode c = .ok i)

/-! ### The step and the ports (00_scope R8, 30_encoding R60) -/

/-- A pending command word that decodes to `i` runs `i` in the state with the word taken from the port
(R8, R56, R60); a word placed by `withFetchWord` is the next one taken. That the pending events are a
list (log 2), what `withFetchWord` stands for (log 4) and the bit order of `decodeTableWord` (log 12) are
the model's choices. -/
def Obligations.StepRunsTheDecodedCommand : Prop :=
  (∀ (s : State) (c : CommandWord) (rest : List PortEvent) (i : Instr),
    s.port = .command c :: rest → decode c = .ok i →
      step s = Sys2Proof.Machine.exec i { s with port := rest }) ∧
  (∀ (s : State) (nbits w : Nat) (i : Instr), decodeTableWord nbits w = some i →
    step (s.withFetchWord nbits w) = Sys2Proof.Machine.exec i s)

/-- With no event pending the block holds its state. The model's reading (log 4) of 43 R111 "between
commands it holds its state unchanged for any length of time". -/
def Obligations.IdleStepHoldsState : Prop :=
  ∀ s : State, s.port = [] → step s = .next s

/-- As many steps as events are pending accept them one at a time, in order (20_memory R43; the pending
list is log 2). -/
def Obligations.StepsAcceptTheEventsInOrder : Prop :=
  ∀ (es : List PortEvent) (s : State),
    steps es.length { s with port := es } = acceptAll es { s with port := [] }

/-- Every command produces exactly one response; its data is a cause code under INVALID_ARGUMENT and 0
under NOT_CONFIGURED and ILLEGAL_COMMAND; the word is status and data (30_encoding R49), with the numeric
codes of 60_exceptions R123 and the cause numbers of R125. -/
def Obligations.OneResponsePerCommand : Prop :=
  (∀ (c : CommandWord) (s t : State), accept (.command c) s = .next t →
    ∃ r : Response, t.responses = s.responses ++ [r] ∧
      (r.status = .invalidArgument → ∃ cause : Cause, r.data = cause.code) ∧
      (r.status = .notConfigured ∨ r.status = .illegalCommand → r.data = 0)) ∧
  (∀ r : Response, r.word.toNat =
    (match r.status with
      | .ok => 0
      | .invalidArgument => 1
      | .unknownNote => 2
      | .notConfigured => 3
      | .illegalCommand => 4) * 2 ^ 32 + r.data.toNat) ∧
  (∀ cause : Cause, cause.code.toNat =
    match cause with
      | .badSampleRate => 1
      | .badTableLength => 2
      | .badFrequency => 3
      | .unsupportedStandard => 4
      | .incrementOverflow => 5
      | .badIndex => 6)

/-! ### Reset and the flags (70_reset_and_hazards R141, 10_state R19, R20, R30) -/

/-- The reset values (10_state R30): of the state after reset, and of a reset in any state, which leaves
both tables and the hardwired readback values. -/
def Obligations.ResetValues : Prop :=
  (State.reset.cfg = false ∧ State.reset.err = false ∧ State.reset.sr = 0x00000000 ∧
    State.reset.phase = 0x00000000 ∧ State.reset.inc = 0x00000000) ∧
  ∀ s : State, ∃ t, accept .reset s = .next t ∧ t.cfg = false ∧ t.err = false ∧ t.sr = 0x00000000 ∧
    t.phase = 0x00000000 ∧ t.inc = 0x00000000 ∧ t.hw = s.hw ∧ readReg .channels t = 1 ∧
    readReg .remaining t = 0xFFFFFFFF ∧ (readReg .tableLen t).toNat = s.hw.N

/-- Reset: the five items take their reset values, no response is sent, the configuration stays; any
number of consecutive resets equal one; no command clears ERR (R141). -/
def Obligations.ResetStep : Prop :=
  (∀ (s : State) (rest : List PortEvent), s.port = .reset :: rest →
    step s = .next ⟨s.hw, false, false, 0x00000000, 0x00000000, 0x00000000, rest, s.responses⟩) ∧
  (∀ (s : State) (n : Nat), acceptAll (List.replicate (n + 1) .reset) s = accept .reset s) ∧
  (∀ (c : CommandWord) (s t : State), accept (.command c) s = .next t → s.err = true → t.err = true)

/-- CFG is set by a successful INIT and by nothing else, cleared by a failed INIT and by reset and by
nothing else, shown as STATUS[0],
and SETF, NEXT and RD of 1, 2, 4, 5 answer NOT_CONFIGURED, setting ERR and nothing else, while it is 0
(10_state R19, 60_exceptions R127). -/
def Obligations.CfgFlagRule : Prop :=
  (∀ (c : CommandWord) (s t : State), accept (.command c) s = .next t →
    (s.cfg = false → t.cfg = true → ∃ w, decode c = .ok (.init w) ∧ t.responses = s.responses ++ [⟨.ok, 0⟩]) ∧
    (s.cfg = true → t.cfg = false → ∃ w, decode c = .ok (.init w) ∧
      t.responses = s.responses ++ [⟨.invalidArgument, 1⟩]) ∧
    (∀ (w data : Word), decode c = .ok (.init w) →
      (t.responses = s.responses ++ [⟨.ok, data⟩] → t.cfg = true) ∧
      (t.responses = s.responses ++ [⟨.invalidArgument, data⟩] → t.cfg = false))) ∧
  (∀ s t : State, accept .reset s = .next t → t.cfg = false) ∧
  (∀ s : State, (statusWord s.cfg s.err).getLsbD 0 = s.cfg) ∧
  (∀ (i : Instr) (s : State), s.cfg = false →
    (∃ w, i = .setf w) ∨ i = .next ∨ i = .rd 1 ∨ i = .rd 2 ∨ i = .rd 4 ∨ i = .rd 5 →
      Sys2Proof.Machine.exec i s =
        .next { s with err := true, responses := s.responses ++ [⟨.notConfigured, 0⟩] })

/-- ERR is set exactly by the responses INVALID_ARGUMENT, NOT_CONFIGURED and ILLEGAL_COMMAND, cleared
only by reset, shown as STATUS[1], and no command's behaviour depends on it but for what RD STATUS
shows (10_state R20). -/
def Obligations.ErrFlagRule : Prop :=
  (∀ (c : CommandWord) (s t : State), accept (.command c) s = .next t →
    ∃ st data, t.responses = s.responses ++ [⟨st, data⟩] ∧
      (t.err = true ↔ s.err = true ∨ st = .invalidArgument ∨ st = .notConfigured ∨ st = .illegalCommand)) ∧
  (∀ s t : State, accept .reset s = .next t → t.err = false) ∧
  (∀ s : State, (statusWord s.cfg s.err).getLsbD 1 = s.err) ∧
  (∀ (c : CommandWord) (s t : State) (b : Bool), accept (.command c) s = .next t →
    ∃ t', accept (.command c) { s with err := b } = .next t' ∧ SameOscillator t t' ∧
      (decode c ≠ .ok (.rd 3) → t'.responses = t.responses))

/-! ### INIT (41_oscillator R76, R77) -/

/-- INIT constructs the oscillator from a finite sample rate above 0, and otherwise clears CFG, sets ERR
and keeps the registers; the accepted words are 0x00000001 to 0x7F7FFFFF; an INIT word with non-zero
reserved bits is illegal. -/
def Obligations.InitConstructsOrFails : Prop :=
  ∀ (w : Word) (s : State),
    (encode (.init w)).toNat = 0x1000000000 + w.toNat ∧
    (F32.fin w = true ∧ 0 < F32.val w →
      Sys2Proof.Machine.exec (.init w) s =
        .next { s with sr := w, phase := 0x00000000, inc := 0x00000000, cfg := true,
                       responses := s.responses ++ [⟨.ok, 0⟩] }) ∧
    (¬ (F32.fin w = true ∧ 0 < F32.val w) →
      Sys2Proof.Machine.exec (.init w) s =
        .next { s with cfg := false, err := true, responses := s.responses ++ [⟨.invalidArgument, 1⟩] }) ∧
    (F32.fin w = true ∧ 0 < F32.val w ↔ 0x00000001 ≤ w.toNat ∧ w.toNat ≤ 0x7F7FFFFF) ∧
    (∀ c : CommandWord, c.toNat / 2 ^ 36 = 1 → c.toNat / 2 ^ 32 % 2 ^ 4 ≠ 0 → AnswersIllegal c s)

/-! ### SETF (41_oscillator R78 to R84) -/

/-- SETF's pseudocode: its checks in order, the two roundings, and `inc` as the only register written
(R78); INCREMENT_OVERFLOW exactly when the product or the quotient is not finite (R81). -/
def Obligations.SetfFollowsItsPseudocode : Prop :=
  ∀ (w : Word) (s : State),
    (encode (.setf w)).toNat = 0x2000000000 + w.toNat ∧
    (s.cfg = false → Sys2Proof.Machine.exec (.setf w) s =
      .next { s with err := true, responses := s.responses ++ [⟨.notConfigured, 0⟩] }) ∧
    (s.cfg = true → ¬ (F32.fin w = true ∧ 0 ≤ F32.val w) → Sys2Proof.Machine.exec (.setf w) s =
      .next { s with err := true, responses := s.responses ++ [⟨.invalidArgument, 3⟩] }) ∧
    (s.Ready → F32.fin w = true → 0 ≤ F32.val w →
      let m := F32.mulNat w s.hw.N
      let q := F32.div m s.sr
      (¬ (F32.fin m = true ∧ F32.fin q = true) → Sys2Proof.Machine.exec (.setf w) s =
        .next { s with err := true, responses := s.responses ++ [⟨.invalidArgument, 5⟩] }) ∧
      (F32.fin m = true → F32.fin q = true → Sys2Proof.Machine.exec (.setf w) s =
        .next { s with inc := q, responses := s.responses ++ [⟨.ok, 0⟩] })) ∧
    (∀ c : CommandWord, c.toNat / 2 ^ 36 = 2 → c.toNat / 2 ^ 32 % 2 ^ 4 ≠ 0 → AnswersIllegal c s)

/-- The frequency check: BAD_FREQUENCY exactly for finite negative non-zero words, infinities and NaNs
(R79). -/
def Obligations.FrequencyCheckRule : Prop :=
  ∀ (w : Word) (s : State), s.Ready →
    ∃ t, Sys2Proof.Machine.exec (.setf w) s = .next t ∧
      (lastResponse t = some ⟨.invalidArgument, 3⟩ ↔
        ¬ (w.toNat ≤ 0x7F7FFFFF ∨ w.toNat = 0x80000000))

/-- Zero frequency: SETF 0.0 sets `inc` to +0; with a zero increment NEXT leaves the phase and answers
the sample at it, which equals TABLE[0] in value when the phase is 0 (R83). -/
def Obligations.ZeroFrequencyFreezesThePhase : Prop :=
  ∀ s : State, s.Ready →
    Sys2Proof.Machine.exec (.setf 0x00000000) s =
      .next { s with inc := 0x00000000, responses := s.responses ++ [⟨.ok, 0⟩] } ∧
    (s.inc = 0x00000000 → ∃ out,
      Sys2Proof.Machine.exec .next s = .next { s with responses := s.responses ++ [⟨.ok, out⟩] } ∧
      sample s.hw s.phase = some out ∧
      (s.phase = 0x00000000 → ∃ t0, s.hw.table[0]? = some t0 ∧ F32.val out = F32.val t0))

/-- Negative zero: SETF -0.0 is accepted and sets `inc` to -0, with which NEXT behaves as with +0; INIT
-0.0 is rejected; every command word but RD INCREMENT answers the same from -0 as from +0 and leaves
states that differ at most in that `inc`; RD INCREMENT answers the word (R84). -/
def Obligations.NegativeZeroRule : Prop :=
  ∀ s : State, s.Ready →
    Sys2Proof.Machine.exec (.setf 0x80000000) s =
      .next { s with inc := 0x80000000, responses := s.responses ++ [⟨.ok, 0⟩] } ∧
    (∃ out, Sys2Proof.Machine.exec .next { s with inc := 0x80000000 } =
        .next { s with inc := 0x80000000, responses := s.responses ++ [⟨.ok, out⟩] } ∧
      Sys2Proof.Machine.exec .next { s with inc := 0x00000000 } =
        .next { s with inc := 0x00000000, responses := s.responses ++ [⟨.ok, out⟩] }) ∧
    Sys2Proof.Machine.exec (.init 0x80000000) s =
      .next { s with cfg := false, err := true, responses := s.responses ++ [⟨.invalidArgument, 1⟩] } ∧
    (∀ c : CommandWord, decode c ≠ .ok (.rd 5) → ∃ t u,
      accept (.command c) { s with inc := 0x80000000 } = .next t ∧
      accept (.command c) { s with inc := 0x00000000 } = .next u ∧
      t.responses = u.responses ∧ t = { u with inc := t.inc } ∧
      (t.inc = u.inc ∨ t.inc = 0x80000000 ∧ u.inc = 0x00000000)) ∧
    (∀ z : Word, Sys2Proof.Machine.exec (.rd 5) { s with inc := z } =
      .next { s with inc := z, responses := s.responses ++ [⟨.ok, z⟩] })

/-! ### NEXT (41_oscillator R85 to R91) -/

/-- NEXT's pseudocode: the two reads, the interpolation in the order written with four roundings, the
phase advance; NOT_CONFIGURED without an oscillator; a NEXT word with non-zero `RSV` or `ARG` is illegal
(R85, R86). -/
def Obligations.NextInterpolatesThenAdvances : Prop :=
  (encode .next).toNat = 0x3000000000 ∧
  (∀ s : State, s.cfg = false → Sys2Proof.Machine.exec .next s =
    .next { s with err := true, responses := s.responses ++ [⟨.notConfigured, 0⟩] }) ∧
  (∀ s : State, s.Ready →
    let i0 := ⌊F32.val s.phase⌋.toNat
    let i1 := (i0 + 1) % s.hw.N
    let frac := F32.subNat s.phase i0
    let w0 := F32.oneSub frac
    F32.val frac = F32.val s.phase - i0 ∧ 0 ≤ F32.val frac ∧ F32.val frac < 1 ∧
    ∃ t0 t1, memRead s.hw i0 = some t0 ∧ memRead s.hw i1 = some t1 ∧
      Sys2Proof.Machine.exec .next s =
        .next { s with phase := F32.modNat (F32.add s.phase s.inc) s.hw.N,
                       responses := s.responses ++
                         [⟨.ok, F32.add (F32.mul w0 t0) (F32.mul frac t1)⟩] }) ∧
  ∀ (c : CommandWord) (s : State), c.toNat / 2 ^ 36 = 3 → c.toNat % 2 ^ 36 ≠ 0 → AnswersIllegal c s

/-- The phase advance: the rounded sum reduced exactly modulo N, always in [0, N), +0 at a multiple of N
(R87). -/
def Obligations.PhaseAdvanceIsExactModulo : Prop :=
  ∀ s : State, s.Ready → ∃ t, Sys2Proof.Machine.exec .next s = .next t ∧
    let x := F32.val (F32.add s.phase s.inc)
    F32.fin (F32.add s.phase s.inc) = true ∧
    F32.val t.phase = x - s.hw.N * ⌊x / s.hw.N⌋ ∧
    0 ≤ F32.val t.phase ∧ F32.val t.phase < s.hw.N ∧
    (F32.val t.phase = 0 → t.phase = 0x00000000)

/-- The index arithmetic: `i0` is the floor of the phase and below N, `i1` its successor modulo N, and
the two differ (R88). -/
def Obligations.IndexLaws : Prop :=
  ∀ s : State, s.Inv →
    (index0 s.phase : Int) = ⌊F32.val s.phase⌋ ∧ index0 s.phase < s.hw.N ∧
    (index0 s.phase < s.hw.N - 1 → index1 s.hw.N s.phase = index0 s.phase + 1) ∧
    (index0 s.phase = s.hw.N - 1 → index1 s.hw.N s.phase = 0) ∧
    index0 s.phase ≠ index1 s.hw.N s.phase

/-- At an integer phase k NEXT answers TABLE[k] exactly: in value always, bit for bit unless the entry
is -0 and `p1` is +0, when the output is +0 (R89, the spec's own inference). -/
def Obligations.IntegerPhaseIsExact : Prop :=
  ∀ (s : State) (k : Nat), s.Ready → F32.val s.phase = k →
    ∃ tk t1 out t, memRead s.hw k = some tk ∧ memRead s.hw ((k + 1) % s.hw.N) = some t1 ∧
      Sys2Proof.Machine.exec .next s = .next t ∧
      t.responses = s.responses ++ [⟨.ok, out⟩] ∧ F32.val out = F32.val tk ∧
      let p1 := F32.mul 0x00000000 t1
      F32.val p1 = 0 ∧
      (tk ≠ 0x80000000 ∨ p1 = 0x80000000 → out = tk) ∧
      (tk = 0x80000000 → p1 = 0x00000000 → out = 0x00000000)

/-- Every sample is a finite binary32 value in [-1, 1] (R90, the spec's own inference). -/
def Obligations.SamplesStayInRange : Prop :=
  ∀ s : State, s.Ready → ∃ t out, Sys2Proof.Machine.exec .next s = .next t ∧
    t.responses = s.responses ++ [⟨.ok, out⟩] ∧
    F32.fin out = true ∧ -1 ≤ F32.val out ∧ F32.val out ≤ 1

/-- Periodicity: when the advance rounds to exactly N, the phase is +0 and the next sample equals
TABLE[0] in value (40_wavetable R71). -/
def Obligations.PeriodicityAtTheWrap : Prop :=
  ∀ s : State, s.Ready → F32.val (F32.add s.phase s.inc) = s.hw.N →
    ∃ t u t0 out, Sys2Proof.Machine.exec .next s = .next t ∧ t.phase = 0x00000000 ∧
      Sys2Proof.Machine.exec .next t = .next u ∧ lastResponse u = some ⟨.ok, out⟩ ∧
      memRead s.hw 0 = some t0 ∧ F32.val out = F32.val t0

/-- No infinity and no NaN is answered: the data of a successful NEXT, RESOLVE, RDTAB or RD of SAMPLE_RATE,
PHASE and INCREMENT is a finite word (R96). -/
def Obligations.AnswersAreFinite : Prop :=
  ∀ (i : Instr) (s t : State) (data : Word), s.Inv → Sys2Proof.Machine.exec i s = .next t →
    t.responses = s.responses ++ [⟨.ok, data⟩] →
    i = .next ∨ i = .rd 1 ∨ i = .rd 4 ∨ i = .rd 5 ∨ (∃ std c1 c0, i = .resolve std c1 c0) ∨
      (∃ tidx, i = .rdtab tidx) →
    F32.fin data = true

/-! ### RESOLVE (42_note_registry R97 to R104) -/

/-- RESOLVE's cases: an unsupported standard, an unrecognised name under a supported one, and each of
the twelve names under each standard (R97; names 30_encoding R57, standards R58). -/
def Obligations.ResolveFollowsItsPseudocode : Prop :=
  let names : Vector Nat 12 := #v[0x0041, 0x2341, 0x0042, 0x0043, 0x2343, 0x0044,
    0x2344, 0x0045, 0x0046, 0x2346, 0x0047, 0x2347]
  ∀ (std : BitVec 16) (c1 c0 : BitVec 8) (s : State),
    (encode (.resolve std c1 c0)).toNat =
      0x4000000000 + std.toNat * 2 ^ 16 + c1.toNat * 2 ^ 8 + c0.toNat ∧
    (std.toNat ≠ 440 → std.toNat ≠ 432 → Sys2Proof.Machine.exec (.resolve std c1 c0) s =
      .next { s with err := true, responses := s.responses ++ [⟨.invalidArgument, 4⟩] }) ∧
    (std.toNat = 440 ∨ std.toNat = 432 → c1.toNat * 2 ^ 8 + c0.toNat ∉ names.toList →
      Sys2Proof.Machine.exec (.resolve std c1 c0) s =
        .next { s with responses := s.responses ++ [⟨.unknownNote, 0x43DC0000⟩] }) ∧
    (∀ p : Fin 12, c1.toNat * 2 ^ 8 + c0.toNat = names[p] →
      (std.toNat = 440 → Sys2Proof.Machine.exec (.resolve std c1 c0) s =
        .next { s with responses := s.responses ++ [⟨.ok, s.hw.note440[p]⟩] }) ∧
      (std.toNat = 432 → Sys2Proof.Machine.exec (.resolve std c1 c0) s =
        .next { s with responses := s.responses ++ [⟨.ok, s.hw.note432[p]⟩] })) ∧
    (∀ c : CommandWord, c.toNat / 2 ^ 36 = 4 → c.toNat / 2 ^ 32 % 2 ^ 4 ≠ 0 → AnswersIllegal c s)

/-- RESOLVE is a pure lookup: its response depends only on the operand and the configured table, and it
changes nothing but ERR on the hard error (R103). -/
def Obligations.ResolveIsPure : Prop :=
  ∀ (std : BitVec 16) (c1 c0 : BitVec 8) (hw : Config), ∃ r : Response,
    ∀ s : State, s.hw = hw →
      Sys2Proof.Machine.exec (.resolve std c1 c0) s =
        .next { s with err := s.err || decide (r.status = .invalidArgument),
                       responses := s.responses ++ [r] }

/-- Every word RESOLVE answers as a frequency is finite and above 0, so SETF accepts it: in a ready
state the SETF of SETN can fail with INCREMENT_OVERFLOW only (R104, R105). -/
def Obligations.ResolvedFrequenciesAreAccepted : Prop :=
  ∀ (std : BitVec 16) (c1 c0 : BitVec 8) (s t : State) (st : Status) (freq : Word),
    Sys2Proof.Machine.exec (.resolve std c1 c0) s = .next t → t.responses = s.responses ++ [⟨st, freq⟩] →
    st = .ok ∨ st = .unknownNote →
    F32.fin freq = true ∧ 0 < F32.val freq ∧
    (s.Ready → ∃ u, setn std c1 c0 s = .next u ∧
      (lastResponse u = some ⟨.ok, 0⟩ ∨ lastResponse u = some ⟨.invalidArgument, 5⟩))

/-! ### RD and RDTAB (43 R107, R110; 40 R74) -/

/-- RD's cases, each with its value, and NOT_CONFIGURED; an RD word with non-zero reserved bits or an
index above 6 is illegal (R107). -/
def Obligations.RdFollowsItsPseudocode : Prop :=
  ∀ (idx : BitVec 4) (s : State),
    (encode (.rd idx)).toNat = 0x5000000000 + idx.toNat ∧
    (idx.toNat = 0 → Sys2Proof.Machine.exec (.rd idx) s =
      .next { s with responses := s.responses ++ [⟨.ok, 0x00000001⟩] }) ∧
    (idx.toNat = 3 → ∃ d : Word, d.toNat = s.err.toNat * 2 + s.cfg.toNat ∧ Sys2Proof.Machine.exec (.rd idx) s =
      .next { s with responses := s.responses ++ [⟨.ok, d⟩] }) ∧
    (idx.toNat = 6 → ∃ d : Word, d.toNat = s.hw.N ∧ Sys2Proof.Machine.exec (.rd idx) s =
      .next { s with responses := s.responses ++ [⟨.ok, d⟩] }) ∧
    (idx.toNat = 1 ∨ idx.toNat = 2 ∨ idx.toNat = 4 ∨ idx.toNat = 5 → s.cfg = false →
      Sys2Proof.Machine.exec (.rd idx) s =
        .next { s with err := true, responses := s.responses ++ [⟨.notConfigured, 0⟩] }) ∧
    (s.cfg = true →
      (idx.toNat = 1 → Sys2Proof.Machine.exec (.rd idx) s =
        .next { s with responses := s.responses ++ [⟨.ok, s.sr⟩] }) ∧
      (idx.toNat = 2 → Sys2Proof.Machine.exec (.rd idx) s =
        .next { s with responses := s.responses ++ [⟨.ok, 0xFFFFFFFF⟩] }) ∧
      (idx.toNat = 4 → Sys2Proof.Machine.exec (.rd idx) s =
        .next { s with responses := s.responses ++ [⟨.ok, s.phase⟩] }) ∧
      (idx.toNat = 5 → Sys2Proof.Machine.exec (.rd idx) s =
        .next { s with responses := s.responses ++ [⟨.ok, s.inc⟩] })) ∧
    (∀ c : CommandWord, c.toNat / 2 ^ 36 = 5 → c.toNat / 2 ^ 4 % 2 ^ 32 ≠ 0 ∨ 7 ≤ c.toNat % 2 ^ 4 →
      AnswersIllegal c s)

/-- A run with an RD inserted anywhere produces the same samples as the run without it (43 R110). -/
def Obligations.RdLeavesTheSamples : Prop :=
  ∀ (before after : List PortEvent) (idx : BitVec 4) (s : State),
    samplesOf (before ++ .command (encode (.rd idx)) :: after) s = samplesOf (before ++ after) s

/-- RDTAB reads TABLE[TIDX] below N and answers BAD_INDEX at or above it, in any state; an RDTAB word
with non-zero reserved bits is illegal (40 R74). -/
def Obligations.RdtabFollowsItsPseudocode : Prop :=
  ∀ (tidx : BitVec 16) (s : State),
    (encode (.rdtab tidx)).toNat = 0x6000000000 + tidx.toNat ∧
    (s.hw.N ≤ tidx.toNat → Sys2Proof.Machine.exec (.rdtab tidx) s =
      .next { s with err := true, responses := s.responses ++ [⟨.invalidArgument, 6⟩] }) ∧
    (∀ h : tidx.toNat < s.hw.table.length, Sys2Proof.Machine.exec (.rdtab tidx) s =
      .next { s with responses := s.responses ++ [⟨.ok, s.hw.table[tidx.toNat]⟩] }) ∧
    (∀ c : CommandWord, c.toNat / 2 ^ 36 = 6 → c.toNat / 2 ^ 16 % 2 ^ 20 ≠ 0 → AnswersIllegal c s)

/-! ### Frames and whole-machine rules -/

/-- What each command leaves: INIT writes `sr`, `phase`, `inc` and CFG, SETF `inc`, NEXT `phase`, and
RESOLVE, RD and RDTAB no register; of the rest only ERR and the responses change, and every location of
both tables reads as before (10_state R16, R17, R18). -/
def Obligations.CommandFrames : Prop :=
  ∀ (i : Instr) (s t : State), Sys2Proof.Machine.exec i s = .next t →
    (match i with
      | .init _ => t = { s with sr := t.sr, phase := t.phase, inc := t.inc, cfg := t.cfg, err := t.err,
                                responses := t.responses }
      | .setf _ => t = { s with inc := t.inc, err := t.err, responses := t.responses }
      | .next => t = { s with phase := t.phase, err := t.err, responses := t.responses }
      | .resolve _ _ _ => t = { s with err := t.err, responses := t.responses }
      | .rd _ => t = { s with err := t.err, responses := t.responses }
      | .rdtab _ => t = { s with err := t.err, responses := t.responses }) ∧
    (∀ a, memRead t.hw a = memRead s.hw a) ∧ (∀ h p, lutRead t.hw h p = lutRead s.hw h p)

/-- `sr` is written only by a successful INIT, `phase` only by a successful INIT or NEXT, `inc` only by a
successful INIT or SETF, over every command word (10_state R16, R17, R18). -/
def Obligations.RegistersWrittenOnlyBySuccess : Prop :=
  ∀ (c : CommandWord) (s t : State), accept (.command c) s = .next t →
    (t.sr ≠ s.sr → decode c = .ok (.init t.sr) ∧ ∃ d, lastResponse t = some ⟨.ok, d⟩) ∧
    (t.phase ≠ s.phase → (decode c = .ok .next ∨ (∃ w, decode c = .ok (.init w)) ∧ t.phase = 0x00000000) ∧
      ∃ d, lastResponse t = some ⟨.ok, d⟩) ∧
    (t.inc ≠ s.inc → ((∃ w, decode c = .ok (.setf w)) ∨ (∃ w, decode c = .ok (.init w)) ∧ t.inc = 0x00000000) ∧
      ∃ d, lastResponse t = some ⟨.ok, d⟩)

/-- No command and no reset writes either table: every read is the same for the whole life of the block
(40 R73). -/
def Obligations.TablesAreNeverWritten : Prop :=
  ∀ s t : State, Reaches s t →
    t.hw = s.hw ∧ (∀ a, memRead t.hw a = memRead s.hw a) ∧ (∀ h p, lutRead t.hw h p = lutRead s.hw h p)

/-- Errors are precise: a command that answers an error changes ERR only, but for a failed INIT, which
also clears CFG (60_exceptions R133). -/
def Obligations.ErrorsArePrecise : Prop :=
  ∀ (c : CommandWord) (s t : State) (st : Status) (data : Word), accept (.command c) s = .next t →
    t.responses = s.responses ++ [⟨st, data⟩] →
    st = .invalidArgument ∨ st = .notConfigured ∨ st = .illegalCommand →
    (¬ (∃ w, decode c = .ok (.init w)) → t = { s with err := true, responses := t.responses }) ∧
    ((∃ w, decode c = .ok (.init w)) → t = { s with err := true, cfg := false, responses := t.responses })

/-- The order of the checks: decode before any state, then CFG, then the arguments in pseudocode order,
then the note name (60_exceptions R130). -/
def Obligations.CheckOrder : Prop :=
  (∀ (c : CommandWord) (e : DecodeError) (s : State), decode c = .error e →
    ∃ t, accept (.command c) s = .next t ∧ lastResponse t = some ⟨.illegalCommand, 0⟩) ∧
  (∀ (i : Instr) (s : State), s.cfg = false →
    (∃ w, i = .setf w) ∨ i = .next ∨ i = .rd 1 ∨ i = .rd 2 ∨ i = .rd 4 ∨ i = .rd 5 →
    ∃ t, Sys2Proof.Machine.exec i s = .next t ∧ lastResponse t = some ⟨.notConfigured, 0⟩) ∧
  (∀ (w : Word) (s : State), s.cfg = true → ¬ (F32.fin w = true ∧ 0 ≤ F32.val w) →
    ∃ t, Sys2Proof.Machine.exec (.setf w) s = .next t ∧ lastResponse t = some ⟨.invalidArgument, 3⟩) ∧
  (∀ (std : BitVec 16) (c1 c0 : BitVec 8) (s : State), std ≠ 440 → std ≠ 432 →
    ∃ t, Sys2Proof.Machine.exec (.resolve std c1 c0) s = .next t ∧
      lastResponse t = some ⟨.invalidArgument, 4⟩) ∧
  (∀ (c : CommandWord) (s t : State) (data : Word), accept (.command c) s = .next t →
    lastResponse t = some ⟨.unknownNote, data⟩ → ∃ c1 c0,
      decode c = .ok (.resolve 440 c1 c0) ∨ decode c = .ok (.resolve 432 c1 c0))

/-- Which command can answer which status, with which causes (60_exceptions R131). -/
def Obligations.StatusesByCommand : Prop :=
  ∀ (i : Instr) (s t : State) (st : Status) (data : Word), i.wellFormed = true →
    Sys2Proof.Machine.exec i s = .next t → t.responses = s.responses ++ [⟨st, data⟩] →
    match i with
    | .init _ => st = .ok ∨ (st = .invalidArgument ∧ data = 1)
    | .setf _ => st = .ok ∨ (st = .invalidArgument ∧ (data = 3 ∨ data = 5)) ∨ st = .notConfigured
    | .next => st = .ok ∨ st = .notConfigured
    | .resolve _ _ _ => st = .ok ∨ (st = .invalidArgument ∧ data = 4) ∨ st = .unknownNote
    | .rd idx => st = .ok ∨ (st = .notConfigured ∧ (idx = 1 ∨ idx = 2 ∨ idx = 4 ∨ idx = 5))
    | .rdtab _ => st = .ok ∨ (st = .invalidArgument ∧ data = 6)

/-- While CFG = 0 no run of events observes `sr`, `phase` or `inc`: two states that differ only in them
give the same responses for ever (10_state R31). -/
def Obligations.HiddenRegistersAreUnobservable : Prop :=
  ∀ (es : List PortEvent) (s s' t : State), SameButHidden s s' → acceptAll es s = .next t →
    ∃ t', acceptAll es s' = .next t' ∧ t'.responses = t.responses ∧ SameButHidden t t'

/-! ### Invariants (10_state R21, 41_oscillator R95, 60_exceptions R140) -/

/-- The reset state meets 10_state R21. -/
def Obligations.ResetMeetsTheInvariant : Prop := State.reset.Inv

/-- Every step from a state that meets 10_state R21 leads to one that meets it: a command (41_oscillator
R95, the spec's own inference), a reset (10_state R30), and an idle step, which is the model's (log 4). -/
def Obligations.StepKeepsTheInvariant : Prop :=
  ∀ s t : State, s.Inv → step s = .next t → t.Inv

/-- No input makes the block hang: in a state that meets 10_state R21 every step answers a next state,
whatever the host has pending (60_exceptions R140, 70 R149). -/
def Obligations.StepNeverStops : Prop :=
  ∀ s : State, s.Inv → ∃ t, step s = .next t

/-! ### The configuration and the wavetable (00_scope R7, 40_wavetable R67 to R72) -/

/-- Every configuration is valid in the sense of 00_scope R7. -/
def Obligations.ConfigurationsAreValid : Prop :=
  ∀ hw : Config, 2 ≤ hw.N ∧ hw.N ≤ 65536 ∧ hw.table.length = hw.N ∧
    (∀ w ∈ hw.table, F32.fin w = true ∧ -1 ≤ F32.val w ∧ F32.val w ≤ 1) ∧
    (∀ h p, F32.fin (lutRead hw h p) = true ∧ 0 < F32.val (lutRead hw h p)) ∧
    F32.val (lutRead hw .hz440 0) = 440 ∧ F32.val (lutRead hw .hz432 0) = 432

/-- WT_NEW rejects a length below 2 or above 65536, and otherwise gives one table of N entries, the
rounded values of the real-valued generator; a generator into [-1, 1] gives entries in [-1, 1] (40 R67).
The model's computation `wtNew`, for a rational-valued generator (log 8), gives that result. -/
def Obligations.WavetableConstruction : Prop :=
  (∀ (N : Nat) (g : Nat → Nat → ℝ),
    (N < 2 ∨ 65536 < N → ∀ r, WtNew N g r ↔ r = .error .badTableLength) ∧
    (2 ≤ N → N ≤ 65536 → ∃ table : List Word, (∀ r, WtNew N g r ↔ r = .ok table) ∧ table.length = N ∧
      (∀ n, n < N → ∃ w, table[n]? = some w ∧ F32.Rounds (g n N) w) ∧
      ((∀ n, n < N → -1 ≤ g n N ∧ g n N ≤ 1) →
        ∀ w ∈ table, F32.fin w = true ∧ -1 ≤ F32.val w ∧ F32.val w ≤ 1))) ∧
  (∀ (N : Nat) (g : Nat → Nat → ℚ), WtNew N (fun n N => (g n N : ℝ)) (wtNew N g))

/-- The sine tables the rules write out: N = 4 and N = 2, and no table below N = 2 or above
N = 65536 (40 R67, R70; 95 T2). -/
def Obligations.SineTableExamples : Prop :=
  IsSineTable 4 [0x00000000, 0x3F800000, 0x00000000, 0xBF800000] ∧
  IsSineTable 2 [0x00000000, 0x00000000] ∧
  ∀ table, ¬ IsSineTable 0 table ∧ ¬ IsSineTable 1 table ∧ ¬ IsSineTable 65537 table

/-- The default table has the symmetries of the sine, bit for bit (40 R72, the spec's own inference; the
words of `defaultConfig` are log 5). -/
def Obligations.DefaultTableSymmetries : Prop :=
  (∀ n : Fin 32, n.val ≠ 0 →
    defaultConfig.table[n.val + 32]? = defaultConfig.table[n.val]?.map (· ^^^ 0x80000000)) ∧
  defaultConfig.table[0]? = some 0x00000000 ∧ defaultConfig.table[32]? = some 0x00000000 ∧
  (∀ n : Fin 17, defaultConfig.table[32 - n.val]? = defaultConfig.table[n.val]?)

/-! ### The number format (00_scope R12, R13; 41_oscillator R75) -/

/-- What every word decodes to, by its fields (00_scope R12), and that the integer the machine computes
with is the value of a finite word in units of 2^(-149) (log 9). -/
def Obligations.UnitsAreTheDecodedValue : Prop :=
  ∀ w : Word,
    let s : Nat := w.toNat / 2 ^ 31
    let e : Nat := w.toNat / 2 ^ 23 % 2 ^ 8
    let m : Nat := w.toNat % 2 ^ 23
    (1 ≤ e ∧ e ≤ 254 →
      F32.decoded w = .real ((-1) ^ s * (2 : ℚ) ^ ((e : ℤ) - 127) * (1 + (m : ℚ) / 2 ^ 23))) ∧
    (e = 0 → F32.decoded w = .real ((-1) ^ s * (2 : ℚ) ^ (-126 : ℤ) * ((m : ℚ) / 2 ^ 23))) ∧
    (e = 255 → m = 0 → F32.decoded w = .infinity (decide (s = 1))) ∧
    (e = 255 → m ≠ 0 → F32.decoded w = .nan) ∧
    (F32.fin w = true ↔ e ≠ 255) ∧
    (F32.fin w = true → F32.decoded w = .real (F32.val w) ∧ (F32.units w : ℚ) = F32.val w * 2 ^ 149)

/-- Rounding (00_scope R13): nearest, ties to the word whose bit 0 is 0, infinity from 2^128 - 2^103 on,
the sign of a non-zero value kept, +0 for zero; and the sign of a zero product, quotient and sum (log 8,
log 9). -/
def Obligations.RoundingIsNearestEven : Prop :=
  (∀ x : ℚ,
    (x = 0 → F32.rnd x = 0x00000000) ∧
    (x ≠ 0 → F32.sign (F32.rnd x) = decide (x < 0)) ∧
    (2 ^ 128 - 2 ^ 103 ≤ |x| → F32.rnd x = if x < 0 then 0xFF800000 else 0x7F800000) ∧
    (|x| < 2 ^ 128 - 2 ^ 103 → F32.fin (F32.rnd x) = true ∧
      ∀ w : Word, F32.fin w = true →
        |x - F32.val (F32.rnd x)| ≤ |x - F32.val w| ∧
        (F32.val w ≠ F32.val (F32.rnd x) → |x - F32.val w| = |x - F32.val (F32.rnd x)| →
          (F32.rnd x).getLsbD 0 = false))) ∧
  (∀ a b : Word, F32.fin a = true → F32.fin b = true →
    (F32.val a * F32.val b = 0 → F32.mul a b = if F32.sign a = F32.sign b then 0x00000000 else 0x80000000) ∧
    (F32.val a = 0 → 0 < F32.val b → F32.div a b = if F32.sign a = F32.sign b then 0x00000000 else 0x80000000) ∧
    (F32.val a + F32.val b = 0 →
      F32.add a b = if a = 0x80000000 ∧ b = 0x80000000 then 0x80000000 else 0x00000000) ∧
    (∀ n : Nat, 0 < n → F32.val a * n = 0 →
      F32.mulNat a n = if F32.sign a then 0x80000000 else 0x00000000))

/-- `rnd` of a real (00_scope R13, `F32.Rounds` in its words) is one word for every real, and the model's
`rnd` gives it for every rational (log 8). -/
def Obligations.RealRoundingIsUnique : Prop :=
  (∀ x : ℝ, ∃ w : Word, ∀ v : Word, F32.Rounds x v ↔ v = w) ∧ (∀ x : ℚ, F32.Rounds (x : ℝ) (F32.rnd x))

/-- Each operation of 41_oscillator R75 rounds its exact result once, and floor and modulo never round;
the comparisons are on decoded values. `rnd` is the model's, on rationals (log 8); that an exactly zero
difference is +0 is log 9. Zero products, quotients and sums are in RoundingIsNearestEven. -/
def Obligations.OperationsRoundOnce : Prop :=
  ∀ a b : Word, F32.fin a = true → F32.fin b = true →
    (F32.val a * F32.val b ≠ 0 → F32.mul a b = F32.rnd (F32.val a * F32.val b)) ∧
    (F32.val a ≠ 0 → 0 < F32.val b → F32.div a b = F32.rnd (F32.val a / F32.val b)) ∧
    (F32.val a + F32.val b ≠ 0 → F32.add a b = F32.rnd (F32.val a + F32.val b)) ∧
    (∀ n : Nat, F32.val a * n ≠ 0 → F32.mulNat a n = F32.rnd (F32.val a * n)) ∧
    (∀ n : Nat, F32.subNat a n = F32.rnd (F32.val a - n)) ∧
    F32.oneSub a = F32.rnd (1 - F32.val a) ∧
    (0 ≤ F32.val a → (F32.floorNat a : Int) = ⌊F32.val a⌋) ∧
    (∀ n : Nat, 0 ≤ F32.val a → 0 < n → n ≤ 65536 → F32.fin (F32.modNat a n) = true ∧
      F32.val (F32.modNat a n) = F32.val a - n * ⌊F32.val a / n⌋) ∧
    (F32.isPos a = true ↔ 0 < F32.val a) ∧ (F32.isNonneg a = true ↔ 0 ≤ F32.val a)

/-! ### The host's playback layer (30_encoding R62 to R64, 43 R118 to R122), modelled as log 10 says -/

/-- SEG K on a ready block answers exactly K samples, each finite and in [-1, 1], and leaves a ready block
with the same sample rate, increment and ERR (30 R63, 43 R109, R118; log 10). -/
def Obligations.SegmentAnswersKSamples : Prop :=
  ∀ (K : Nat) (s : State), s.Ready → ∃ (t : State) (samples : List Word),
    seg K s = .next t ∧ t.Ready ∧ samples.length = K ∧
    t.responses = s.responses ++ samples.map (fun w => ⟨.ok, w⟩) ∧
    (∀ w ∈ samples, F32.fin w = true ∧ -1 ≤ F32.val w ∧ F32.val w ≤ 1) ∧
    t.sr = s.sr ∧ t.inc = s.inc ∧ t.err = s.err

/-- SETN from any block: RESOLVE, then SETF with its data under OK or UNKNOWN_NOTE, and no SETF after an
error (30 R62). -/
def Obligations.SetnIsResolveThenSetf : Prop :=
  ∀ (std : BitVec 16) (c1 c0 : BitVec 8) (s t : State) (st : Status) (data : Word),
    Sys2Proof.Machine.exec (.resolve std c1 c0) s = .next t → t.responses = s.responses ++ [⟨st, data⟩] →
    (st = .ok ∨ st = .unknownNote → setn std c1 c0 s = Sys2Proof.Machine.exec (.setf data) t) ∧
    (st = .invalidArgument → setn std c1 c0 s = .next t)

/-- The worked note of 42 R105: with N = 64 and a sample rate of 44100.0, SETN of "A" under 440 and of
"H" under 432 leave the increment 0x3F2377EE (the default tables, log 5). -/
def Obligations.SetnWorkedExample : Prop :=
  (∃ t, andThen (accept (.command 0x10472C4400) State.reset) (setn 440 0x00 0x41) = .next t ∧
    t.inc = 0x3F2377EE ∧ t.err = false) ∧
  (∃ t, andThen (accept (.command 0x10472C4400) State.reset) (setn 432 0x00 0x48) = .next t ∧
    t.inc = 0x3F2377EE ∧ t.err = false)

/-- The default sample count of a segment of `d` seconds is `d * r` rounded, halves up, and in the band
of conforming counts (43 R118; log 10). -/
def Obligations.SegmentLengthIsRounded : Prop :=
  ∀ d r : ℚ, 0 ≤ d * r →
    ((Duration.seconds d).sampleCount r : ℚ) ≤ d * r + 1 / 2 ∧
    d * r < ((Duration.seconds d).sampleCount r : ℚ) + 1 / 2 ∧
    ∀ K : Nat, inBand d r K = true ↔
      (K : Int) - ((Duration.seconds d).sampleCount r : Int) ≤ 1 ∧
      ((Duration.seconds d).sampleCount r : Int) - (K : Int) ≤ 1

/-- The sequencer's note: Sounding while fewer samples than requested are emitted, with the rest
remaining, and Idle from then on (43 R116, R118, R120; log 10). -/
def Obligations.NoteEndsAtItsCount : Prop :=
  ∀ total k : Nat,
    (k < total → NoteState.emitted^[k] (NoteState.start total) = .sounding k total ∧
      (NoteState.emitted^[k] (NoteState.start total)).remaining = total - k) ∧
    (total ≤ k → NoteState.emitted^[k] (NoteState.start total) = .idle)

/-- PLAY issues RESOLVE; after an error it issues nothing more, else SETF with the answered frequency and
SEG of the duration's sample count (30 R64, R62; 43 R122, R118; log 10). -/
def Obligations.PlayIsSetnThenSegment : Prop :=
  ∀ (std : BitVec 16) (c1 c0 : BitVec 8) (d : Duration) (r : ℚ) (s t : State) (st : Status) (data : Word),
    Sys2Proof.Machine.exec (.resolve std c1 c0) s = .next t → t.responses = s.responses ++ [⟨st, data⟩] →
    (st = .ok ∨ st = .unknownNote →
      play std c1 c0 d r s = andThen (Sys2Proof.Machine.exec (.setf data) t) (seg (d.sampleCount r))) ∧
    (st = .invalidArgument → play std c1 c0 d r s = .next t)

/-- Playing a note ends: from a state that meets 10_state R21 it hands the sink at most the note's count
of samples, exactly that many when it finishes, at most what the sink takes, and leaves a state that meets
R21 (43 R114, R120, R122; log 10). A failed INIT of a fresh note ends it with no sample, the model's
choice (log 14). -/
def Obligations.PlayingANoteIsBounded : Prop :=
  ∀ (std : BitVec 16) (n : Note) (out : List Word) (s : State),
    s.Inv → ∃ p : Played, playNote std n out s = .next p ∧ p.state.Inv ∧
      p.samples.length ≤ out.length + n.count ∧
      (p.ended = .finished → p.samples.length = out.length + n.count) ∧
      (∀ m, n.sinkTakes = some m → p.samples.length ≤ out.length + m ∧
        (p.ended = .sinkFailed → p.samples.length = out.length + m)) ∧
      (∀ w, n.start = .fresh w → ¬ (F32.fin w = true ∧ 0 < F32.val w) →
        p.ended = .hardError ∧ p.samples = out)

/-- Playing a sequence ends, with at most the notes' counts of samples, and leaves a state that meets R21;
a sink failure ends it only at a note that aborts (43 R114, R116, R120; log 10). -/
def Obligations.PlayingASequenceIsBounded : Prop :=
  ∀ (std : BitVec 16) (notes : List Note) (out : List Word) (s : State),
    s.Inv → ∃ p : Played, playSequence std notes out s = .next p ∧ p.state.Inv ∧
      p.samples.length ≤ out.length + (notes.map Note.count).sum ∧
      (p.ended = .sinkFailed → ∃ n ∈ notes, n.react = .abortSequence ∧ n.sinkTakes ≠ none)
end

