-- ==== Sys2Proof/Laws/Float.lean ====
section
/-! SUPPORT. The laws of the number format and of rounding (00_scope R12, R13): how a word splits into
its fields, that its magnitude bits count the binary32 values, that rounding is exact on binary32
values, monotonic and independent of the fraction's representation. -/

namespace Sys2Proof.F32

/-! ### The fields of a word -/

/-- The magnitude bits `w[30:0]`. -/
def code (w : Word) : Nat := w.toNat % 2 ^ 31

theorem fraction_eq (w : Word) : fraction w = w.toNat % 2 ^ 23 := by
  simp [fraction, BitVec.extractLsb'_toNat]

theorem exponent_eq (w : Word) : exponent w = w.toNat / 2 ^ 23 % 256 := by
  simp [exponent, BitVec.extractLsb'_toNat, Nat.shiftRight_eq_div_pow]

theorem sign_eq (w : Word) : sign w = decide (2 ^ 31 ≤ w.toNat) := by
  simp [sign, BitVec.msb_eq_decide]

theorem fraction_lt (w : Word) : fraction w < 2 ^ 23 := by
  rw [fraction_eq]; exact Nat.mod_lt _ (by decide)

theorem exponent_lt (w : Word) : exponent w < 256 := by
  rw [exponent_eq]; exact Nat.mod_lt _ (by decide)

theorem code_lt (w : Word) : code w < 2 ^ 31 := Nat.mod_lt _ (by decide)

theorem code_eq (w : Word) : code w = exponent w * 2 ^ 23 + fraction w := by
  have := w.isLt
  simp only [code, exponent_eq, fraction_eq]; omega

theorem toNat_eq (w : Word) : w.toNat = (if sign w then 2 ^ 31 else 0) + code w := by
  have := w.isLt
  rw [sign_eq, code]; split <;> simp_all <;> omega

theorem fin_iff_code (w : Word) : fin w = true ↔ code w < infMag := by
  have h1 := exponent_lt w
  have h2 := fraction_lt w
  simp only [fin, code_eq, infMag, bne_iff_ne, ne_eq]; omega

/-- A finite word decodes to its real value (00_scope R12). -/
theorem decoded_of_fin {w : Word} (h : fin w = true) : decoded w = .real (val w) := by
  have h : exponent w ≠ 255 := by simpa [fin] using h
  simp [decoded, h]

/-- A word that decodes to a real is finite. -/
theorem fin_of_decoded {w : Word} {x : ℚ} (h : decoded w = .real x) : fin w = true ∧ val w = x := by
  by_cases he : exponent w = 255
  · by_cases hf : fraction w = 0 <;> simp [decoded, he, hf] at h
  · simp [decoded, he] at h
    exact ⟨by simpa [fin] using he, h⟩

/-- A word is determined by its sign and its magnitude bits. -/
theorem eq_withSign (w : Word) : w = withSign (sign w) (code w) := by
  apply BitVec.eq_of_toNat_eq
  have h := toNat_eq w
  have := w.isLt
  simp only [withSign, BitVec.toNat_ofNat]
  split <;> simp_all <;> omega

theorem toNat_withSign (neg : Bool) {m : Nat} (h : m < 2 ^ 31) :
    (withSign neg m).toNat = (if neg then 2 ^ 31 else 0) + m := by
  simp only [withSign, BitVec.toNat_ofNat]; split <;> omega

@[simp] theorem sign_withSign (neg : Bool) {m : Nat} (h : m < 2 ^ 31) :
    sign (withSign neg m) = neg := by
  rw [sign_eq, toNat_withSign neg h]; cases neg
  · simp; omega
  · simp

@[simp] theorem code_withSign (neg : Bool) {m : Nat} (h : m < 2 ^ 31) :
    code (withSign neg m) = m := by
  rw [code, toNat_withSign neg h]; cases neg <;> simp <;> omega

/-! ### The magnitude bits count the binary32 values -/

/-- The magnitude, in units of 2^(-149), of the magnitude bits `c`. -/
def unitsOfCode (c : Nat) : Nat :=
  if c < 2 ^ 23 then c else (2 ^ 23 + c % 2 ^ 23) * 2 ^ (c / 2 ^ 23 - 1)

theorem magUnits_eq (w : Word) : magUnits w = unitsOfCode (code w) := by
  have h2 := fraction_lt w
  rw [magUnits, unitsOfCode, code_eq]
  by_cases h : exponent w = 0
  · rw [if_pos h, h, Nat.zero_mul, Nat.zero_add, if_pos h2]
  · have h3 : ¬ exponent w * 2 ^ 23 + fraction w < 2 ^ 23 := by omega
    have h4 : (exponent w * 2 ^ 23 + fraction w) % 2 ^ 23 = fraction w := by omega
    have h5 : (exponent w * 2 ^ 23 + fraction w) / 2 ^ 23 = exponent w := by omega
    rw [if_neg h, if_neg h3, h4, h5, Nat.mul_comm]

/-- The bits `e * 2^23 + q` of a significand `q` at the spacing `2^e`. -/
theorem unitsOfCode_add (e q : Nat) (h1 : q ≤ 2 ^ 24) (h2 : e = 0 ∨ 2 ^ 23 ≤ q) :
    unitsOfCode (e * 2 ^ 23 + q) = q * 2 ^ e := by
  rcases Nat.lt_or_ge q (2 ^ 23) with hq | hq
  · obtain rfl : e = 0 := by omega
    rw [Nat.zero_mul, Nat.zero_add, unitsOfCode, if_pos hq, pow_zero, Nat.mul_one]
  · have h0 : ¬ e * 2 ^ 23 + q < 2 ^ 23 := by omega
    rcases Nat.lt_or_ge q (2 ^ 24) with hq' | hq'
    · have h3 : (e * 2 ^ 23 + q) % 2 ^ 23 = q - 2 ^ 23 := by omega
      have h4 : (e * 2 ^ 23 + q) / 2 ^ 23 - 1 = e := by omega
      have h5 : 2 ^ 23 + (q - 2 ^ 23) = q := by omega
      rw [unitsOfCode, if_neg h0, h3, h4, h5]
    · obtain rfl : q = 2 ^ 24 := by omega
      have h3 : (e * 2 ^ 23 + 2 ^ 24) % 2 ^ 23 = 0 := by omega
      have h4 : (e * 2 ^ 23 + 2 ^ 24) / 2 ^ 23 - 1 = e + 1 := by omega
      rw [unitsOfCode, if_neg h0, h3, h4, Nat.add_zero, Nat.pow_succ 2 e, Nat.mul_comm (2 ^ e) 2, ← Nat.mul_assoc, ← Nat.pow_succ]

/-- Every code is a significand at a spacing, in the range `unitsOfCode_add` asks for. -/
theorem exists_significand (c : Nat) :
    ∃ e q, c = e * 2 ^ 23 + q ∧ q < 2 ^ 24 ∧ (e = 0 ∨ 2 ^ 23 ≤ q) := by
  rcases Nat.lt_or_ge c (2 ^ 23) with h | h
  · exact ⟨0, c, by omega, by omega, .inl rfl⟩
  · exact ⟨c / 2 ^ 23 - 1, 2 ^ 23 + c % 2 ^ 23, by omega, by omega, .inr (by omega)⟩

theorem unitsOfCode_lt_succ (c : Nat) : unitsOfCode c < unitsOfCode (c + 1) := by
  obtain ⟨e, q, rfl, hq, he⟩ := exists_significand c
  rw [unitsOfCode_add e q (by omega) he, Nat.add_assoc, unitsOfCode_add e (q + 1) (by omega) (by omega)]
  exact Nat.mul_lt_mul_of_pos_right (by omega) (by positivity)

theorem unitsOfCode_strictMono : StrictMono unitsOfCode :=
  strictMono_nat_of_lt_succ unitsOfCode_lt_succ

theorem unitsOfCode_le_iff {a b : Nat} : unitsOfCode a ≤ unitsOfCode b ↔ a ≤ b :=
  unitsOfCode_strictMono.le_iff_le

theorem unitsOfCode_inj {a b : Nat} : unitsOfCode a = unitsOfCode b ↔ a = b :=
  unitsOfCode_strictMono.injective.eq_iff

@[simp] theorem unitsOfCode_zero : unitsOfCode 0 = 0 := by simp [unitsOfCode]

theorem unitsOfCode_small {c : Nat} (h : c ≤ 2 ^ 24) : unitsOfCode c = c := by
  simpa using unitsOfCode_add 0 c h (.inl rfl)

/-! ### Rounding to an integer -/

theorem roundEven_mul (k : Nat) {den : Nat} (h : 0 < den) : roundEven (k * den) den = k := by
  simp [roundEven, Nat.mul_div_cancel _ h]
  omega

theorem roundEven_scale (num den k : Nat) (hk : 0 < k) :
    roundEven (num * k) (den * k) = roundEven num den := by
  have h1 : den * k < 2 * (num % den * k) ↔ den < 2 * (num % den) := by
    rw [← Nat.mul_assoc]; exact Nat.mul_lt_mul_right hk
  have h2 : 2 * (num % den * k) = den * k ↔ 2 * (num % den) = den := by
    rw [← Nat.mul_assoc]; exact Nat.mul_left_inj (by omega)
  simp only [roundEven, Nat.mul_div_mul_right _ _ hk, Nat.mul_mod_mul_right, h1, h2]

/-- `roundEven` is at most half a unit away from the quotient, and exactly half only when even. -/
theorem roundEven_spec (num : Nat) {den : Nat} (h : 0 < den) :
    2 * (roundEven num den * den) ≤ 2 * num + den ∧ 2 * num ≤ 2 * (roundEven num den * den) + den ∧
      (2 * (roundEven num den * den) = 2 * num + den → roundEven num den % 2 = 0) ∧
      (2 * num = 2 * (roundEven num den * den) + den → roundEven num den % 2 = 0) := by
  have h1 := Nat.div_add_mod num den
  have h2 := Nat.mod_lt num h
  have h3 : (num / den + 1) * den = den * (num / den) + den := by ring
  have h4 : num / den * den = den * (num / den) := by ring
  simp only [roundEven]
  split <;> rename_i hc <;> simp only [h3, h4] <;> omega

theorem roundEven_mono {a b : Nat} {den : Nat} (h : 0 < den) (hab : a ≤ b) :
    roundEven a den ≤ roundEven b den := by
  obtain ⟨a1, a2, a3, a4⟩ := roundEven_spec a h
  obtain ⟨b1, b2, b3, b4⟩ := roundEven_spec b h
  by_contra hlt
  have hle : (roundEven b den + 1) * den ≤ roundEven a den * den := Nat.mul_le_mul_right _ (by omega)
  have hex : (roundEven b den + 1) * den = roundEven b den * den + den := by ring
  have heq : a = b := by omega
  subst heq
  omega

theorem roundEven_le {num den k : Nat} (h : 0 < den) (hk : num ≤ k * den) : roundEven num den ≤ k := by
  simpa [roundEven_mul k h] using roundEven_mono h hk

theorem le_roundEven {num den k : Nat} (h : 0 < den) (hk : k * den ≤ num) : k ≤ roundEven num den := by
  simpa [roundEven_mul k h] using roundEven_mono h hk

/-! ### Rounding to a binary32 magnitude -/

/-- The significand that `rndMag` rounds to, before overflow is looked at. -/
def significand (num den : Nat) : Nat := roundEven num (den * 2 ^ spacingExp num den)

theorem rndMag_eq (num den : Nat) :
    rndMag num den = min (spacingExp num den * 2 ^ 23 + significand num den) infMag := by
  rw [significand, Nat.mul_comm den, Nat.mul_comm _ (2 ^ 23)]; rfl

/-- The quotient lies in the binades that the spacing belongs to. -/
theorem spacing_bounds (num : Nat) {den : Nat} (h : 0 < den) :
    num < 2 ^ 24 * (den * 2 ^ spacingExp num den) ∧
      (spacingExp num den = 0 ∨ 2 ^ 23 * (den * 2 ^ spacingExp num den) ≤ num) := by
  have hq : num < den * (num / den + 1) := Nat.lt_mul_div_succ num h
  have hq' : den * (num / den) ≤ num := Nat.mul_div_le num den
  have hlt : num / den < 2 ^ (Nat.log2 (num / den) + 1) := Nat.lt_log2_self
  have hup : num / den + 1 ≤ 2 ^ 24 * 2 ^ spacingExp num den := by
    rw [← pow_add]
    exact le_trans hlt (Nat.pow_le_pow_right (by omega) (by simp only [spacingExp]; omega))
  refine ⟨?_, ?_⟩
  · calc num < den * (num / den + 1) := hq
      _ ≤ den * (2 ^ 24 * 2 ^ spacingExp num den) := Nat.mul_le_mul_left _ hup
      _ = _ := by ring
  · rcases Nat.eq_zero_or_pos (spacingExp num den) with h0 | h0
    · exact .inl h0
    · right
      have hne : num / den ≠ 0 := by
        intro hz; simp [spacingExp, hz] at h0
      have hlow : 2 ^ (23 + spacingExp num den) ≤ num / den := by
        have : 23 + spacingExp num den = Nat.log2 (num / den) := by
          simp only [spacingExp] at h0 ⊢; omega
        rw [this]; exact Nat.log2_self_le hne
      calc 2 ^ 23 * (den * 2 ^ spacingExp num den) = den * 2 ^ (23 + spacingExp num den) := by
            rw [pow_add]; ring
        _ ≤ den * (num / den) := Nat.mul_le_mul_left _ hlow
        _ ≤ num := hq'

theorem significand_bounds (num : Nat) {den : Nat} (h : 0 < den) :
    significand num den ≤ 2 ^ 24 ∧ (spacingExp num den = 0 ∨ 2 ^ 23 ≤ significand num den) := by
  obtain ⟨h1, h2⟩ := spacing_bounds num h
  have hd : 0 < den * 2 ^ spacingExp num den := by positivity
  exact ⟨roundEven_le hd h1.le, h2.imp_right (le_roundEven hd)⟩

/-- The magnitude bits before overflow is looked at, and what they stand for. -/
theorem unitsOfCode_rounded (num : Nat) {den : Nat} (h : 0 < den) :
    unitsOfCode (spacingExp num den * 2 ^ 23 + significand num den)
      = significand num den * 2 ^ spacingExp num den :=
  unitsOfCode_add _ _ (significand_bounds num h).1 (significand_bounds num h).2

/-- Rounding depends on the quotient only, not on how the fraction is written. -/
theorem rndMag_scale (num den k : Nat) (hk : 0 < k) : rndMag (num * k) (den * k) = rndMag num den := by
  have h : spacingExp (num * k) (den * k) = spacingExp num den := by
    simp only [spacingExp, Nat.mul_div_mul_right _ _ hk]
  rw [rndMag_eq, rndMag_eq, significand, significand, h,
    show den * k * 2 ^ spacingExp num den = den * 2 ^ spacingExp num den * k by ring,
    roundEven_scale _ _ _ hk]

theorem spacingExp_mono {a b den : Nat} (h : a ≤ b) : spacingExp a den ≤ spacingExp b den := by
  simp only [spacingExp]
  have := Nat.log_mono_right (b := 2) (Nat.div_le_div_right (c := den) h)
  simp only [← Nat.log2_eq_log_two] at this
  omega

/-- Rounding is monotonic, over a common denominator. -/
theorem rndMag_mono {a b den : Nat} (h : 0 < den) (hab : a ≤ b) : rndMag a den ≤ rndMag b den := by
  rw [rndMag_eq, rndMag_eq]
  refine min_le_min_right _ ?_
  obtain ⟨ha, -⟩ := significand_bounds a h
  obtain ⟨-, hb⟩ := significand_bounds b h
  rcases Nat.lt_or_ge (spacingExp a den) (spacingExp b den) with hlt | hge
  · omega
  · have heq := le_antisymm (spacingExp_mono hab) hge
    have : significand a den ≤ significand b den := by
      rw [significand, significand, heq]; exact roundEven_mono (by positivity) hab
    omega

/-- Rounding is monotonic, for two fractions. -/
theorem rndMag_le_of_cross {a b c d : Nat} (hb : 0 < b) (hd : 0 < d) (h : a * d ≤ c * b) :
    rndMag a b ≤ rndMag c d := by
  rw [← rndMag_scale a b d hd, ← rndMag_scale c d b hb, Nat.mul_comm d b]
  exact rndMag_mono (by positivity) h

/-- Rounding depends on the quotient only, for two fractions. -/
theorem rndMag_congr {a b c d : Nat} (hb : 0 < b) (hd : 0 < d) (h : a * d = c * b) :
    rndMag a b = rndMag c d :=
  le_antisymm (rndMag_le_of_cross hb hd h.le) (rndMag_le_of_cross hd hb h.ge)

/-- A binary32 magnitude rounds to itself. -/
theorem rndMag_unitsOfCode {c den : Nat} (hc : c ≤ infMag) (h : 0 < den) :
    rndMag (unitsOfCode c * den) den = c := by
  have hdiv : unitsOfCode c * den / den = unitsOfCode c := Nat.mul_div_cancel _ h
  obtain ⟨e, q, hcq, hq, he⟩ := exists_significand c
  have hu : unitsOfCode c = q * 2 ^ e := by rw [hcq]; exact unitsOfCode_add e q hq.le he
  have hs : spacingExp (unitsOfCode c * den) den = e := by
    rw [spacingExp, hdiv, hu]
    rcases he with rfl | he
    · rcases Nat.eq_zero_or_pos q with rfl | hpos
      · simp
      · have : Nat.log2 q < 24 := (Nat.log2_lt (by omega)).2 hq
        simp; omega
    · have hne : q * 2 ^ e ≠ 0 := by positivity
      have h1 : Nat.log2 (q * 2 ^ e) < 24 + e := (Nat.log2_lt hne).2 (by
        rw [pow_add]; exact Nat.mul_lt_mul_of_pos_right hq (by positivity))
      have h2 : 23 + e ≤ Nat.log2 (q * 2 ^ e) := (Nat.le_log2 hne).2 (by
        rw [pow_add]; exact Nat.mul_le_mul_right _ he)
      omega
  rw [rndMag_eq, significand, hs, hu, show q * 2 ^ e * den = q * (den * 2 ^ e) by ring,
    roundEven_mul q (by positivity), ← hcq]
  exact min_eq_left hc

theorem rndMag_le_infMag (num den : Nat) : rndMag num den ≤ infMag := min_le_right _ _

theorem rndMag_lt (num den : Nat) : rndMag num den < 2 ^ 31 :=
  lt_of_le_of_lt (rndMag_le_infMag num den) (by decide)

/-- A magnitude at most a binary32 magnitude rounds to at most it. -/
theorem rndMag_le {num den c : Nat} (hc : c ≤ infMag) (h : 0 < den) (hle : num ≤ unitsOfCode c * den) :
    rndMag num den ≤ c := by
  simpa [rndMag_unitsOfCode hc h] using rndMag_mono h hle

/-- A magnitude at least a binary32 magnitude rounds to at least it. -/
theorem le_rndMag {num den c : Nat} (hc : c ≤ infMag) (h : 0 < den) (hle : unitsOfCode c * den ≤ num) :
    c ≤ rndMag num den := by
  simpa [rndMag_unitsOfCode hc h] using rndMag_mono h hle

@[simp] theorem rndMag_zero (den : Nat) : rndMag 0 den = 0 := by
  simp [rndMag, spacingExp, roundEven, infMag]

/-- What rounding answers when it does not overflow: half a spacing of error at most, and a tie goes to
the even significand. -/
theorem rndMag_spec (num : Nat) {den : Nat} (h : 0 < den) (hf : rndMag num den < infMag) :
    let e := spacingExp num den
    unitsOfCode (rndMag num den) = significand num den * 2 ^ e ∧
      2 * (unitsOfCode (rndMag num den) * den) ≤ 2 * num + den * 2 ^ e ∧
      2 * num ≤ 2 * (unitsOfCode (rndMag num den) * den) + den * 2 ^ e := by
  intro e
  have hr : rndMag num den = e * 2 ^ 23 + significand num den := by
    rw [rndMag_eq] at hf ⊢; omega
  have hu : unitsOfCode (rndMag num den) = significand num den * 2 ^ e := by
    rw [hr]; exact unitsOfCode_rounded num h
  have hd : 0 < den * 2 ^ e := by positivity
  obtain ⟨h1, h2, -, -⟩ := roundEven_spec num hd
  have h3 : unitsOfCode (rndMag num den) * den = roundEven num (den * 2 ^ e) * (den * 2 ^ e) := by
    rw [hu, significand]; ring
  exact ⟨hu, by rw [h3]; exact h1, by rw [h3]; exact h2⟩

/-! ### Overflow and the nearest value -/

/-- The overflow threshold `2^128 - 2^103` of R13, in units of 2^(-149). -/
def overflow : Nat := (2 ^ 24 - 1) * 2 ^ 253 + 2 ^ 252

/-- At and above the threshold rounding overflows. -/
theorem rndMag_eq_infMag {num den : Nat} (h : 0 < den) (hle : overflow * den ≤ num) :
    rndMag num den = infMag := by
  have h1 : rndMag overflow 1 = infMag := by decide +kernel
  exact le_antisymm (rndMag_le_infMag _ _) (h1 ▸ rndMag_le_of_cross Nat.one_pos h (by omega))

/-- Below the threshold rounding does not overflow. -/
theorem rndMag_lt_infMag {num den : Nat} (h : 0 < den) (hlt : num < overflow * den) :
    rndMag num den < infMag := by
  by_contra hge
  have hinf : rndMag num den = infMag := le_antisymm (rndMag_le_infMag _ _) (not_lt.1 hge)
  obtain ⟨hb1, hb2⟩ := spacing_bounds num h
  obtain ⟨hs1, hs2⟩ := significand_bounds num h
  have hr := rndMag_eq num den
  have hs : spacingExp num den = 253 := by
    have h1 : spacingExp num den ≤ 253 := by
      by_contra hgt
      rcases hb2 with h0 | h0
      · omega
      · have h2 : 2 ^ 23 * (den * 2 ^ 254) ≤ num := le_trans (Nat.mul_le_mul_left _ (Nat.mul_le_mul_left _ (Nat.pow_le_pow_right (by decide) (by omega)))) h0
        have h3 : overflow * den ≤ 2 ^ 23 * (den * 2 ^ 254) := by
          have : overflow ≤ 2 ^ 23 * 2 ^ 254 := by decide
          calc overflow * den ≤ 2 ^ 23 * 2 ^ 254 * den := Nat.mul_le_mul_right _ this
            _ = _ := by ring
        omega
    rw [hinf, infMag] at hr; omega
  have hsig : significand num den ≤ 2 ^ 24 - 1 := by
    have hd : 0 < den * 2 ^ 253 := Nat.mul_pos h (by positivity)
    obtain ⟨h1, -, h3, -⟩ := roundEven_spec num hd
    rw [significand, hs]
    by_contra hgt
    have h2 : 2 ^ 24 * (den * 2 ^ 253) ≤ roundEven num (den * 2 ^ 253) * (den * 2 ^ 253) :=
      Nat.mul_le_mul_right _ (by omega)
    have h4 : 2 * (overflow * den) + den * 2 ^ 253 = 2 * (2 ^ 24 * (den * 2 ^ 253)) := by
      have : 2 * overflow + 2 ^ 253 = 2 * (2 ^ 24 * 2 ^ 253) := by decide
      linear_combination den * this
    omega
  rw [hs, hinf, infMag] at hr
  omega

/-- No binary32 magnitude is nearer than the rounded one, and an equally near one has the odd code. -/
theorem rndMag_nearest {num den : Nat} (h : 0 < den) (hf : rndMag num den < infMag) (c : Nat) :
    |(num : ℤ) - unitsOfCode (rndMag num den) * den| ≤ |(num : ℤ) - unitsOfCode c * den| ∧
    (c ≠ rndMag num den → |(num : ℤ) - unitsOfCode (rndMag num den) * den| = |(num : ℤ) - unitsOfCode c * den| →
      rndMag num den % 2 = 0) := by
  obtain ⟨hb1, hb2⟩ := spacing_bounds num h
  obtain ⟨hs1, hs2⟩ := significand_bounds num h
  have hM : rndMag num den = spacingExp num den * 2 ^ 23 + significand num den := by
    rw [rndMag_eq] at hf ⊢; omega
  set e := spacingExp num den with he
  set q := significand num den with hq
  set M := rndMag num den with hMd
  have hD : 0 < den * 2 ^ e := by positivity
  obtain ⟨r1, r2, r3, r4⟩ := roundEven_spec num hD
  have hq' : roundEven num (den * 2 ^ e) = q := rfl
  rw [hq'] at r1 r2 r3 r4
  have hUM : unitsOfCode M * den = q * (den * 2 ^ e) := by
    rw [hM, unitsOfCode_add e q hs1 hs2]; ring
  set D := den * 2 ^ e with hDd
  -- neighbours
  have hup : M < c → (q + 1) * D ≤ unitsOfCode c * den := by
    intro hlt
    have h1 : unitsOfCode (M + 1) ≤ unitsOfCode c := unitsOfCode_le_iff.2 hlt
    have h2 : (q + 1) * 2 ^ e ≤ unitsOfCode (M + 1) := by
      rcases Nat.lt_or_ge q (2 ^ 24) with h3 | h3
      · rw [hM, Nat.add_assoc, unitsOfCode_add e (q + 1) (by omega) (by omega)]
      · have h4 : M + 1 = (e + 1) * 2 ^ 23 + (2 ^ 23 + 1) := by omega
        rw [h4, unitsOfCode_add _ _ (by norm_num) (.inr (by norm_num)), pow_succ 2 e]
        have : q = 2 ^ 24 := by omega
        rw [this]
        have : 0 < 2 ^ e := by positivity
        generalize 2 ^ e = z at *
        omega
    calc (q + 1) * D = (q + 1) * 2 ^ e * den := by rw [hDd]; ring
      _ ≤ _ := Nat.mul_le_mul_right _ (h2.trans h1)
  have hdown : c < M → (unitsOfCode c * den + D ≤ q * D) ∨ (2 * (unitsOfCode c * den) + D ≤ 2 * (q * D) ∧ q * D ≤ num) := by
    intro hlt
    have h1 : unitsOfCode c ≤ unitsOfCode (M - 1) := unitsOfCode_le_iff.2 (by omega)
    by_cases h0 : e = 0 ∨ 2 ^ 23 < q
    · left
      have h2 : M - 1 = e * 2 ^ 23 + (q - 1) := by omega
      rw [h2, unitsOfCode_add e (q - 1) (by omega) (by omega)] at h1
      have h3 : 1 ≤ q := by omega
      have h4 : (q - 1) * 2 ^ e * den + D = q * D := by
        obtain ⟨k, hk⟩ : ∃ k, q = k + 1 := ⟨q - 1, by omega⟩
        rw [hDd, hk, Nat.add_sub_cancel]; ring
      have := Nat.mul_le_mul_right den h1
      omega
    · right
      push Not at h0
      have hqe : q = 2 ^ 23 := by omega
      obtain ⟨f, hf'⟩ : ∃ f, e = f + 1 := ⟨e - 1, by omega⟩
      have h2 : M - 1 = f * 2 ^ 23 + (2 ^ 24 - 1) := by omega
      rw [h2, unitsOfCode_add f _ (by omega) (.inr (by omega))] at h1
      have h5 := Nat.mul_le_mul_right den h1
      have hD2 : D = 2 * (2 ^ f * den) := by rw [hDd, hf', pow_succ]; ring
      refine ⟨?_, by rw [hqe]; exact hb2.resolve_left h0.1⟩
      rw [hqe]
      have : (2 ^ 24 - 1) * 2 ^ f * den = (2 ^ 24 - 1) * (2 ^ f * den) := by ring
      rw [this] at h5
      omega
  by_cases hcM : c = M
  · rw [hcM]; exact ⟨le_rfl, fun h => absurd rfl h⟩
  have hpar : q % 2 = 0 → M % 2 = 0 := by intro h; omega
  rw [show ((unitsOfCode M : ℤ) * den) = ((unitsOfCode M * den : Nat) : ℤ) by push_cast; rfl,
    show ((unitsOfCode c : ℤ) * den) = ((unitsOfCode c * den : Nat) : ℤ) by push_cast; rfl, hUM]
  have hadd : (q + 1) * D = q * D + D := by ring
  rw [hadd] at hup
  generalize q * D = Q at *
  generalize unitsOfCode c * den = C at *
  refine ⟨?_, fun hne heq => ?_⟩
  · rcases Nat.lt_or_gt_of_ne hcM with hlt | hgt
    · have := hdown hlt
      rcases abs_cases ((num : ℤ) - Q) with ⟨h1, h1'⟩ | ⟨h1, h1'⟩ <;>
        rcases abs_cases ((num : ℤ) - C) with ⟨h2, h2'⟩ | ⟨h2, h2'⟩ <;> rw [h1, h2] <;> omega
    · have := hup hgt
      rcases abs_cases ((num : ℤ) - Q) with ⟨h1, h1'⟩ | ⟨h1, h1'⟩ <;>
        rcases abs_cases ((num : ℤ) - C) with ⟨h2, h2'⟩ | ⟨h2, h2'⟩ <;> rw [h1, h2] <;> omega
  · apply hpar
    rcases Nat.lt_or_gt_of_ne hne with hlt | hgt
    · have := hdown hlt
      rcases abs_cases ((num : ℤ) - Q) with ⟨h1, h1'⟩ | ⟨h1, h1'⟩ <;>
        rcases abs_cases ((num : ℤ) - C) with ⟨h2, h2'⟩ | ⟨h2, h2'⟩ <;> rw [h1, h2] at heq <;> omega
    · have := hup hgt
      rcases abs_cases ((num : ℤ) - Q) with ⟨h1, h1'⟩ | ⟨h1, h1'⟩ <;>
        rcases abs_cases ((num : ℤ) - C) with ⟨h2, h2'⟩ | ⟨h2, h2'⟩ <;> rw [h1, h2] at heq <;> omega

end Sys2Proof.F32
end

