-- ==== Sys2Proof/Laws/Arithmetic.lean ====
section
/-! SUPPORT. The laws of the arithmetic on words (41_oscillator R75): signs and magnitudes of the
results, what stays finite, and the two operations that never round, the fraction of a phase and the
exact modulo. -/

namespace Sys2Proof.F32

/-! ### Values and units -/

/-- R12's value is the integer `units` at the spacing 2^(-149). -/
theorem val_eq_units (w : Word) : val w = (units w : ℚ) / one := by
  have hone : ((one : ℕ) : ℚ) = 2 ^ 149 := by rw [one]; push_cast; rfl
  have hmag : (if exponent w = 0 then (2 : ℚ) ^ (-126 : ℤ) * (fraction w / 2 ^ 23)
      else (2 : ℚ) ^ ((exponent w : ℤ) - 127) * (1 + fraction w / 2 ^ 23)) = (magUnits w : ℚ) / 2 ^ 149 := by
    rw [magUnits]
    split
    · norm_num; ring
    · rename_i h
      have he : ((exponent w : ℤ) - 127) = ((exponent w - 1 : ℕ) : ℤ) - 126 := by omega
      rw [he, zpow_sub₀ (by norm_num), zpow_natCast]
      push_cast
      norm_num
      ring
  rw [val, hmag, hone, units]
  split <;> push_cast <;> ring

theorem one_pos : (0 : ℚ) < one := by simp [one]

theorem val_nonneg_iff (w : Word) : 0 ≤ val w ↔ 0 ≤ units w := by
  rw [val_eq_units, le_div_iff₀ one_pos, zero_mul]; exact_mod_cast Iff.rfl

theorem val_pos_iff (w : Word) : 0 < val w ↔ 0 < units w := by
  rw [val_eq_units, lt_div_iff₀ one_pos, zero_mul]; exact_mod_cast Iff.rfl

theorem val_lt_nat_iff (w : Word) (n : Nat) : val w < n ↔ units w < n * one := by
  rw [val_eq_units, div_lt_iff₀ one_pos]; exact_mod_cast Iff.rfl

theorem isPos_iff (w : Word) : isPos w = true ↔ 0 < val w := by
  rw [val_pos_iff]; simp [isPos]

theorem isNonneg_iff (w : Word) : isNonneg w = true ↔ 0 ≤ val w := by
  rw [val_nonneg_iff]; simp [isNonneg]

theorem units_of_sign_false {w : Word} (h : sign w = false) : units w = magUnits w := by
  simp [units, h]

theorem natAbs_units (w : Word) : (units w).natAbs = magUnits w := by
  rw [units]; split <;> simp

/-- A value at or above 0 has its sign bit clear, or is -0. -/
theorem units_of_nonneg {w : Word} (h : 0 ≤ units w) : units w = magUnits w := by
  rw [units] at h ⊢; split at h <;> simp_all

/-! ### Words built from a sign and a magnitude -/

@[simp] theorem magUnits_withSign (neg : Bool) {m : Nat} (h : m < 2 ^ 31) :
    magUnits (withSign neg m) = unitsOfCode m := by
  rw [magUnits_eq, code_withSign neg h]

theorem units_withSign (neg : Bool) {m : Nat} (h : m < 2 ^ 31) :
    units (withSign neg m) = if neg then -(unitsOfCode m : Int) else unitsOfCode m := by
  rw [units, sign_withSign neg h, magUnits_withSign neg h]

theorem fin_withSign (neg : Bool) {m : Nat} (h : m < 2 ^ 31) :
    fin (withSign neg m) = true ↔ m < infMag := by
  rw [fin_iff_code, code_withSign neg h]

@[simp] theorem sign_withSign_rndMag (neg : Bool) (num den : Nat) :
    sign (withSign neg (rndMag num den)) = neg := sign_withSign neg (rndMag_lt num den)

@[simp] theorem code_withSign_rndMag (neg : Bool) (num den : Nat) :
    code (withSign neg (rndMag num den)) = rndMag num den := code_withSign neg (rndMag_lt num den)

@[simp] theorem magUnits_withSign_rndMag (neg : Bool) (num den : Nat) :
    magUnits (withSign neg (rndMag num den)) = unitsOfCode (rndMag num den) :=
  magUnits_withSign neg (rndMag_lt num den)

/-! ### Signs and magnitudes of results -/

@[simp] theorem sign_rndUnits (z : Int) : sign (rndUnits z) = decide (z < 0) :=
  sign_withSign_rndMag _ _ _

@[simp] theorem code_rndUnits (z : Int) : code (rndUnits z) = rndMag z.natAbs 1 :=
  code_withSign_rndMag _ _ _

@[simp] theorem magUnits_rndUnits (z : Int) : magUnits (rndUnits z) = unitsOfCode (rndMag z.natAbs 1) :=
  magUnits_withSign_rndMag _ _ _

@[simp] theorem code_mul (a b : Word) : code (mul a b) = rndMag (magUnits a * magUnits b) one :=
  code_withSign_rndMag _ _ _

@[simp] theorem sign_mul (a b : Word) : sign (mul a b) = (sign a != sign b) :=
  sign_withSign_rndMag _ _ _

@[simp] theorem code_mulNat (a : Word) (n : Nat) : code (mulNat a n) = rndMag (magUnits a * n) 1 :=
  code_withSign_rndMag _ _ _

@[simp] theorem sign_mulNat (a : Word) (n : Nat) : sign (mulNat a n) = sign a :=
  sign_withSign_rndMag _ _ _

@[simp] theorem code_div (a b : Word) : code (div a b) = rndMag (magUnits a * one) (magUnits b) := by
  rw [Nat.mul_comm]; exact code_withSign_rndMag _ _ _

@[simp] theorem sign_div (a b : Word) : sign (div a b) = (sign a != sign b) :=
  sign_withSign_rndMag _ _ _

/-- The magnitude of a sum, whichever way a zero sum goes. -/
@[simp] theorem code_add (a b : Word) : code (add a b) = rndMag (units a + units b).natAbs 1 := by
  rw [add]
  split
  · rename_i h
    rw [h.1]; simp [code]
  · exact code_rndUnits _

theorem units_eq_zero_iff {w : Word} : units w = 0 ↔ code w = 0 := by
  rw [← Int.natAbs_eq_zero, natAbs_units, magUnits_eq]
  constructor
  · intro h; exact unitsOfCode_inj.1 (by simpa using h)
  · intro h; simp [h]

/-- Rounding gives back a finite word, unless it is -0. -/
theorem rndUnits_units {w : Word} (h : fin w = true) (hz : w ≠ 0x80000000) : rndUnits (units w) = w := by
  have hc := (fin_iff_code w).1 h
  have hm : rndMag (magUnits w) 1 = code w := by
    simpa [magUnits_eq] using rndMag_unitsOfCode (den := 1) hc.le (by decide)
  conv_rhs => rw [eq_withSign w]
  rw [rndUnits, natAbs_units, hm]
  congr 1
  cases hs : sign w
  · simp [units, hs]
  · have hpos : 0 < magUnits w := by
      rw [magUnits_eq, Nat.pos_iff_ne_zero]
      intro h0
      have hc0 : code w = 0 := unitsOfCode_inj.1 (by simpa using h0)
      apply hz
      rw [eq_withSign w, hs, hc0]; rfl
    simp [units, hs, hpos]

theorem modNat_eq (a : Word) (n : Nat) : modNat a n = rndUnits ((magUnits a % (n * one) : Nat) : Int) := by
  rw [modNat, Nat.mul_comm]

theorem subNat_eq (a : Word) (n : Nat) : subNat a n = rndUnits (units a - (n : Int) * (one : Nat)) := by
  rw [subNat, Nat.mul_comm, Nat.cast_mul]

/-! ### R13's rounding of a rational -/

theorem one_pos_nat : 0 < one := by decide

/-- R13's rounding of a rational, from any fraction that gives it. -/
theorem rnd_div (p : Int) {q : Nat} (hq : 0 < q) :
    rnd ((p : ℚ) / q) = withSign (decide (p < 0)) (rndMag (one * p.natAbs) q) := by
  have hq' : (0 : ℚ) < q := by exact_mod_cast hq
  set x : ℚ := (p : ℚ) / q with hx
  have hcross : x.num * q = p * x.den := by
    have h1 : (x.num : ℚ) / x.den = (p : ℚ) / q := by rw [Rat.num_div_den]
    rw [div_eq_div_iff (by exact_mod_cast x.den_nz) hq'.ne'] at h1
    exact_mod_cast h1
  have hsign : x.num < 0 ↔ p < 0 := by
    rw [Rat.num_neg, hx, div_lt_iff₀ hq', zero_mul]; exact_mod_cast Iff.rfl
  have habs : x.num.natAbs * q = p.natAbs * x.den := by
    have := congrArg Int.natAbs hcross
    simpa [Int.natAbs_mul] using this
  rw [rnd, decide_eq_decide.2 hsign, rndMag_congr x.den_pos hq]
  rw [Nat.mul_assoc, habs, Nat.mul_assoc]

/-- Rounding an integer number of units. -/
theorem rnd_units (z : Int) : rnd ((z : ℚ) / one) = rndUnits z := by
  rw [rnd_div z (by decide : 0 < one), rndUnits, rndMag_congr (by decide) Nat.one_pos (c := z.natAbs)]
  ring

/-- The sign of a value that is not 0 is the sign bit. -/
theorem units_neg_iff {a : Word} (h : units a ≠ 0) : units a < 0 ↔ sign a = true := by
  unfold units at h ⊢
  split <;> rename_i hs <;> simp only [hs] at h ⊢
  · simp at h ⊢; omega
  · simp at h ⊢

/-- The sign of a product that is not 0. -/
theorem units_mul_sign (a b : Word) (h : units a * units b ≠ 0) :
    decide (units a * units b < 0) = (sign a != sign b) := by
  have ha : units a ≠ 0 := left_ne_zero_of_mul h
  have hb : units b ≠ 0 := right_ne_zero_of_mul h
  have ha' := units_neg_iff ha
  have hb' := units_neg_iff hb
  rw [Bool.eq_iff_iff, decide_eq_true_eq, mul_neg_iff]
  generalize sign a = x at *
  generalize sign b = y at *
  cases x <;> cases y <;> simp at * <;> omega

/-! ### Representable remainders -/

/-- A significand below 2^24 at any spacing is a binary32 magnitude (of some exponent). -/
theorem exists_code (e : Nat) : ∀ q, q < 2 ^ 24 → ∃ c, unitsOfCode c = q * 2 ^ e := by
  induction e with
  | zero => exact fun q hq => ⟨q, by simpa using unitsOfCode_small hq.le⟩
  | succ e ih =>
    intro q hq
    rcases Nat.lt_or_ge q (2 ^ 23) with h | h
    · obtain ⟨c, hc⟩ := ih (2 * q) (by omega)
      exact ⟨c, by rw [hc, pow_succ]; ring⟩
    · exact ⟨(e + 1) * 2 ^ 23 + q, unitsOfCode_add _ _ hq.le (.inr h)⟩

/-- The remainder of a binary32 magnitude by an integer up to 65536 is a binary32 magnitude
(41_oscillator R75). -/
theorem exists_code_mod (c : Nat) {n : Nat} (hn : 0 < n) (hn' : n ≤ 65536) :
    ∃ r ≤ c, unitsOfCode r = unitsOfCode c % (n * one) := by
  suffices ∃ r, unitsOfCode r = unitsOfCode c % (n * one) by
    obtain ⟨r, hr⟩ := this
    exact ⟨r, unitsOfCode_le_iff.1 (hr ▸ Nat.mod_le _ _), hr⟩
  obtain ⟨e, q, rfl, hq, he⟩ := exists_significand c
  rw [unitsOfCode_add e q hq.le he]
  rcases Nat.le_total e 149 with h | h
  · have hm : n * one = n * 2 ^ (149 - e) * 2 ^ e := by
      rw [Nat.mul_assoc, ← pow_add, show 149 - e + e = 149 by omega]; rfl
    rw [hm, Nat.mul_mod_mul_right]
    exact exists_code e _ (lt_of_le_of_lt (Nat.mod_le _ _) hq)
  · have hm : q * 2 ^ e = q * 2 ^ (e - 149) * one := by
      rw [Nat.mul_assoc, one, ← pow_add, show e - 149 + 149 = e by omega]
    rw [hm, Nat.mul_mod_mul_right]
    exact exists_code 149 _ (lt_of_lt_of_le (Nat.mod_lt _ hn) (by omega))

/-- The exact modulo does not round (41_oscillator R75, R87). -/
theorem modNat_spec {a : Word} (h : fin a = true) {n : Nat} (hn : 0 < n) (hn' : n ≤ 65536) :
    sign (modNat a n) = false ∧ fin (modNat a n) = true ∧ magUnits (modNat a n) = magUnits a % (n * one) := by
  obtain ⟨r, hr, hu⟩ := exists_code_mod (code a) hn hn'
  have hlt : r < infMag := lt_of_le_of_lt hr ((fin_iff_code a).1 h)
  have hm : rndMag (magUnits a % (n * one)) 1 = r := by
    rw [magUnits_eq, ← hu]; simpa using rndMag_unitsOfCode (den := 1) hlt.le (by decide)
  refine ⟨?_, ?_, ?_⟩
  · rw [modNat_eq, sign_rndUnits]; exact decide_eq_false (by omega)
  · rw [fin_iff_code]; simp only [modNat_eq, code_rndUnits, Int.natAbs_natCast, hm, hlt]
  · rw [modNat_eq, magUnits_rndUnits, Int.natAbs_natCast, hm, hu, magUnits_eq]

/-- A phase below N is its own remainder, bit for bit. -/
theorem modNat_self {a : Word} (h : fin a = true) (hz : a ≠ 0x80000000) (h0 : 0 ≤ units a) {n : Nat}
    (hlt : units a < n * one) : modNat a n = a := by
  have hu := units_of_nonneg h0
  have : magUnits a % (n * one) = magUnits a := Nat.mod_eq_of_lt (by rw [hu] at hlt; exact_mod_cast hlt)
  rw [modNat_eq, this, ← hu, rndUnits_units h hz]

/-- The fraction of a phase does not round (41_oscillator R86). -/
theorem subNat_floor_spec {a : Word} (h : fin a = true) (h0 : 0 ≤ units a) :
    sign (subNat a (floorNat a)) = false ∧ fin (subNat a (floorNat a)) = true ∧
      magUnits (subNat a (floorNat a)) = magUnits a % one := by
  have hsub : units a - ((floorNat a : Nat) : Int) * (one : Nat) = ((magUnits a % (1 * one) : Nat) : Int) := by
    rw [units_of_nonneg h0, floorNat, Nat.one_mul]
    have := Nat.div_add_mod (magUnits a) one
    rw [Nat.mul_comm] at this
    omega
  have := modNat_spec h (n := 1) (by decide) (by decide)
  rw [modNat_eq, ← hsub, Nat.one_mul, ← subNat_eq] at this
  exact this

/-! ### Results that stay in range -/

theorem val_of_sign_false {w : Word} (h : sign w = false) : val w = (magUnits w : ℚ) / one := by
  rw [val_eq_units, units_of_sign_false h]; simp

/-- A magnitude up to 1 + 2^(-24) rounds to at most 1. -/
theorem rndMag_le_one {num : Nat} (h : num ≤ one + 2 ^ 125) : rndMag num 1 ≤ 0x3F800000 := by
  have h1 : rndMag (one + 2 ^ 125) 1 = 0x3F800000 := by decide +kernel
  exact h1 ▸ rndMag_mono Nat.one_pos h

theorem unitsOfCode_one : unitsOfCode 0x3F800000 = one := by decide +kernel

/-- 1 - f rounds to at most 2^(-25) above it, for 0 <= f <= 1. -/
theorem rndMag_oneSub {f : Nat} (h : f ≤ one) : unitsOfCode (rndMag (one - f) 1) ≤ one - f + 2 ^ 124 := by
  rcases Nat.eq_zero_or_pos f with rfl | hpos
  · rw [Nat.sub_zero]
    have := unitsOfCode_le_iff.2 (rndMag_le_one (Nat.le_add_right one _))
    rw [unitsOfCode_one] at this
    exact this.trans (Nat.le_add_right _ _)
  · have hlt : rndMag (one - f) 1 < infMag := lt_of_le_of_lt (rndMag_le_one (by omega)) (by decide)
    obtain ⟨-, h1, -⟩ := rndMag_spec (one - f) Nat.one_pos hlt
    have h2 : spacingExp (one - f) 1 ≤ 125 := by
      rw [spacingExp, Nat.div_one]
      rcases Nat.eq_zero_or_pos (one - f) with h0 | h0
      · rw [h0]; decide
      · have := (Nat.log2_lt (n := one - f) (k := 149) (by omega)).2 (by unfold one at *; omega)
        omega
    have h3 : 2 ^ spacingExp (one - f) 1 ≤ 2 ^ 125 := Nat.pow_le_pow_right (by decide) h2
    have h4 : 2 ^ 125 = 2 * 2 ^ 124 := by decide
    omega

/-- A rounded product with a factor of magnitude at most 1 is at most the other factor. -/
theorem magUnits_mul_le {a b : Word} (ha : fin a = true) (hb : magUnits b ≤ one) :
    magUnits (mul a b) ≤ magUnits a := by
  have h1 := (fin_iff_code a).1 ha
  rw [mul, magUnits_withSign_rndMag]
  conv_rhs => rw [magUnits_eq]
  exact unitsOfCode_le_iff.2 (rndMag_le h1.le one_pos_nat (by rw [← magUnits_eq]; exact Nat.mul_le_mul_left _ hb))

theorem abs_units (w : Word) : |units w| = magUnits w := by
  rw [Int.abs_eq_natAbs, natAbs_units]

theorem val_abs_le_one {w : Word} (h : magUnits w ≤ one) : -1 ≤ val w ∧ val w ≤ 1 := by
  have h1 : |val w| ≤ 1 := by
    rw [val_eq_units, abs_div, abs_of_pos one_pos, div_le_one one_pos]
    have := abs_units w
    have h2 : |units w| ≤ (one : ℤ) := by rw [this]; exact_mod_cast h
    exact_mod_cast h2
  exact abs_le.1 h1

/-- The sum of a phase and an increment is finite. -/
theorem add_fin {p i : Word} (hi : fin i = true) (h0 : 0 ≤ units p) (h0' : 0 ≤ units i) {N : Nat} (hN : N ≤ 65536)
    (hp : units p < N * one) : fin (add p i) = true ∧ 0 ≤ units (add p i) := by
  have hc : code (add p i) = rndMag (units p + units i).natAbs 1 := code_add p i
  have hmi : magUnits i ≤ unitsOfCode (infMag - 1) := by
    rw [magUnits_eq]; exact unitsOfCode_le_iff.2 (by have := (fin_iff_code i).1 hi; omega)
  have hmax : unitsOfCode (infMag - 1) = (2 ^ 24 - 1) * 2 ^ 253 := by decide +kernel
  have hN' : (N : ℤ) * one ≤ 65536 * one := by
    exact_mod_cast Nat.mul_le_mul_right one hN
  have h1 : (65536 * one : ℤ) ≤ 2 ^ 252 := by decide
  have hi' := units_of_nonneg h0'
  refine ⟨?_, ?_⟩
  · rw [fin_iff_code, hc]
    apply rndMag_lt_infMag Nat.one_pos
    have h2 : overflow = (2 ^ 24 - 1) * 2 ^ 253 + 2 ^ 252 := rfl
    have h3 : (magUnits i : ℤ) ≤ ((2 ^ 24 - 1) * 2 ^ 253 : ℕ) := by rw [← hmax]; exact_mod_cast hmi
    have h4 : ((units p + units i).natAbs : ℤ) < ((2 ^ 24 - 1) * 2 ^ 253 : ℕ) + (2 ^ 252 : ℤ) := by omega
    have h5 : ((overflow * 1 : ℕ) : ℤ) = ((2 ^ 24 - 1) * 2 ^ 253 : ℕ) + (2 ^ 252 : ℤ) := by decide
    omega
  · rw [add]
    split
    · decide
    · rw [units, sign_rndUnits, if_neg (by simp; omega)]; omega

/-! ### Floors, fractions and the neutral words -/

/-- The floor of a value at or above 0 (00_scope R14). -/
theorem floor_val {w : Word} (h : 0 ≤ val w) : ⌊val w⌋ = (floorNat w : Int) := by
  rw [val_eq_units, units_of_nonneg ((val_nonneg_iff w).1 h), floorNat]
  have := Rat.floor_intCast_div_natCast (magUnits w) one
  push_cast at this ⊢
  exact_mod_cast this

/-- The fraction of a phase is exact and below 1 (41_oscillator R86). -/
theorem frac_spec {w : Word} (hf : fin w = true) (h : 0 ≤ val w) :
    val (subNat w (floorNat w)) = val w - floorNat w ∧
    0 ≤ val (subNat w (floorNat w)) ∧ val (subNat w (floorNat w)) < 1 := by
  obtain ⟨h1, h2, h3⟩ := subNat_floor_spec hf ((val_nonneg_iff w).1 h)
  have hv := val_of_sign_false h1
  have hw : val w = (magUnits w : ℚ) / one := by
    rw [val_eq_units, units_of_nonneg ((val_nonneg_iff w).1 h)]; simp
  have hlt : magUnits w % one < one := Nat.mod_lt _ one_pos_nat
  refine ⟨?_, ?_, ?_⟩
  · rw [hv, h3, hw, floorNat]
    have hdm : (magUnits w : ℚ) = one * (magUnits w / one : Nat) + (magUnits w % one : Nat) := by
      exact_mod_cast (Nat.div_add_mod (magUnits w) one).symm
    have hone := one_pos.ne'
    rw [div_sub' hone, div_left_inj' hone]
    linarith
  · rw [hv]; positivity
  · rw [hv, h3, div_lt_one one_pos]; exact_mod_cast hlt

/-- A sum with a zero of either sign: the value is kept, and the word too unless it is -0. -/
theorem add_zero_word {a z : Word} (ha : fin a = true) (hz : units z = 0) :
    units (add a z) = units a ∧ (a ≠ 0x80000000 → add a z = a) := by
  by_cases h : a = 0x80000000
  · subst h
    refine ⟨?_, by simp⟩
    rw [add]
    have : units (0x80000000 : Word) = 0 := by decide
    rw [this, hz]
    split
    · exact this
    · decide +kernel
  · have hadd : add a z = a := by
      rw [add, hz, add_zero]
      have hn : ¬ (units a = 0 ∧ sign a = true ∧ sign z = true) := by
        rintro ⟨h1, h2, -⟩
        apply h
        rw [eq_withSign a, h2, units_eq_zero_iff.1 h1]; rfl
      simp only [hn, if_false]
      exact rndUnits_units ha h
    exact ⟨by rw [hadd], fun _ => hadd⟩

/-- A product with 1.0 is the other factor, bit for bit. -/
theorem one_mul_word {a : Word} (ha : fin a = true) : mul 0x3F800000 a = a := by
  have h1 : magUnits (0x3F800000 : Word) = one := by decide +kernel
  have hs : sign (0x3F800000 : Word) = false := by decide
  rw [mul, h1, hs, magUnits_eq, Nat.mul_comm, rndMag_unitsOfCode ((fin_iff_code a).1 ha).le one_pos_nat]
  conv_rhs => rw [eq_withSign a]
  cases sign a <;> rfl

end Sys2Proof.F32
end

