-- ==== Sys2Proof/Laws/Decode.lean ====
section
/-! SUPPORT. The fields of a command word, and what each part of the decoder reads from them
(30_encoding R48, R50). -/

namespace Sys2Proof

/-- Concatenation as a number (00_scope R11). -/
theorem toNat_append_eq {m n : Nat} (x : BitVec m) (y : BitVec n) :
    (x ++ y).toNat = x.toNat * 2 ^ n + y.toNat := by
  rw [BitVec.toNat_append, ← Nat.shiftLeft_add_eq_or_of_lt y.isLt, Nat.shiftLeft_eq]

theorem toNat_commandWord (op rsv : BitVec 4) (arg : Word) :
    (commandWord op rsv arg).toNat = op.toNat * 2 ^ 36 + rsv.toNat * 2 ^ 32 + arg.toNat := by
  have h : (commandWord op rsv arg).toNat = (op ++ rsv ++ arg).toNat := rfl
  rw [h, toNat_append_eq, toNat_append_eq]; ring

theorem toNat_opField (c : CommandWord) : (opField c).toNat = c.toNat / 2 ^ 36 := by
  have := c.isLt
  simp only [opField, BitVec.extractLsb'_toNat, Nat.shiftRight_eq_div_pow]; omega

theorem toNat_rsvField (c : CommandWord) : (rsvField c).toNat = c.toNat / 2 ^ 32 % 16 := by
  simp [rsvField, BitVec.extractLsb'_toNat, Nat.shiftRight_eq_div_pow]

theorem toNat_argField (c : CommandWord) : (argField c).toNat = c.toNat % 2 ^ 32 := by
  simp [argField, BitVec.extractLsb'_toNat]

@[simp] theorem opField_commandWord (op rsv : BitVec 4) (arg : Word) :
    opField (commandWord op rsv arg) = op := by
  apply BitVec.eq_of_toNat_eq
  have := rsv.isLt; have := arg.isLt
  rw [toNat_opField, toNat_commandWord]; omega

@[simp] theorem rsvField_commandWord (op rsv : BitVec 4) (arg : Word) :
    rsvField (commandWord op rsv arg) = rsv := by
  apply BitVec.eq_of_toNat_eq
  have := rsv.isLt; have := arg.isLt
  rw [toNat_rsvField, toNat_commandWord]; omega

@[simp] theorem argField_commandWord (op rsv : BitVec 4) (arg : Word) :
    argField (commandWord op rsv arg) = arg := by
  apply BitVec.eq_of_toNat_eq
  have := arg.isLt
  rw [toNat_argField, toNat_commandWord]; omega

/-- A command word is its three fields. -/
theorem commandWord_fields (c : CommandWord) : commandWord (opField c) (rsvField c) (argField c) = c := by
  apply BitVec.eq_of_toNat_eq
  have := c.isLt
  rw [toNat_commandWord, toNat_opField, toNat_rsvField, toNat_argField]; omega

/-- What the decoder answers for the word of three fields. -/
theorem decode_commandWord (op : BitVec 4) (arg : Word) :
    decode (commandWord op 0 arg) =
      if op = 0x1 then .ok (.init arg)
      else if op = 0x2 then .ok (.setf arg)
      else if op = 0x3 then decodeNext arg
      else if op = 0x4 then decodeResolve arg
      else if op = 0x5 then decodeRd arg
      else if op = 0x6 then decodeRdtab arg
      else .error .reservedOpcode := by
  simp [decode]

end Sys2Proof
end

