-- ==== Sys2Proof/Laws/State.lean ====
section
/-! SUPPORT. One lemma per field of State and named update, true by rfl, so that no later proof unfolds
a record update. -/

namespace Sys2Proof.Machine

@[simp] theorem respond_hw (st : Status) (data : Word) (s : State) : (respond st data s).hw = s.hw := rfl
@[simp] theorem respond_cfg (st : Status) (data : Word) (s : State) : (respond st data s).cfg = s.cfg := rfl
@[simp] theorem respond_err (st : Status) (data : Word) (s : State) : (respond st data s).err = s.err := rfl
@[simp] theorem respond_sr (st : Status) (data : Word) (s : State) : (respond st data s).sr = s.sr := rfl
@[simp] theorem respond_phase (st : Status) (data : Word) (s : State) : (respond st data s).phase = s.phase := rfl
@[simp] theorem respond_inc (st : Status) (data : Word) (s : State) : (respond st data s).inc = s.inc := rfl
@[simp] theorem respond_port (st : Status) (data : Word) (s : State) : (respond st data s).port = s.port := rfl
@[simp] theorem respond_responses (st : Status) (data : Word) (s : State) : (respond st data s).responses = s.responses ++ [⟨st, data⟩] := rfl

@[simp] theorem raise_hw (st : Status) (data : Word) (s : State) : (raise st data s).hw = s.hw := rfl
@[simp] theorem raise_cfg (st : Status) (data : Word) (s : State) : (raise st data s).cfg = s.cfg := rfl
@[simp] theorem raise_err (st : Status) (data : Word) (s : State) : (raise st data s).err = true := rfl
@[simp] theorem raise_sr (st : Status) (data : Word) (s : State) : (raise st data s).sr = s.sr := rfl
@[simp] theorem raise_phase (st : Status) (data : Word) (s : State) : (raise st data s).phase = s.phase := rfl
@[simp] theorem raise_inc (st : Status) (data : Word) (s : State) : (raise st data s).inc = s.inc := rfl
@[simp] theorem raise_port (st : Status) (data : Word) (s : State) : (raise st data s).port = s.port := rfl
@[simp] theorem raise_responses (st : Status) (data : Word) (s : State) : (raise st data s).responses = s.responses ++ [⟨st, data⟩] := rfl

@[simp] theorem raiseArgument_hw (c : Cause) (s : State) : (raiseArgument c s).hw = s.hw := rfl
@[simp] theorem raiseArgument_cfg (c : Cause) (s : State) : (raiseArgument c s).cfg = s.cfg := rfl
@[simp] theorem raiseArgument_err (c : Cause) (s : State) : (raiseArgument c s).err = true := rfl
@[simp] theorem raiseArgument_sr (c : Cause) (s : State) : (raiseArgument c s).sr = s.sr := rfl
@[simp] theorem raiseArgument_phase (c : Cause) (s : State) : (raiseArgument c s).phase = s.phase := rfl
@[simp] theorem raiseArgument_inc (c : Cause) (s : State) : (raiseArgument c s).inc = s.inc := rfl
@[simp] theorem raiseArgument_port (c : Cause) (s : State) : (raiseArgument c s).port = s.port := rfl
@[simp] theorem raiseArgument_responses (c : Cause) (s : State) : (raiseArgument c s).responses = s.responses ++ [⟨.invalidArgument, c.code⟩] := rfl

@[simp] theorem raiseNotConfigured_hw (s : State) : (raiseNotConfigured s).hw = s.hw := rfl
@[simp] theorem raiseNotConfigured_cfg (s : State) : (raiseNotConfigured s).cfg = s.cfg := rfl
@[simp] theorem raiseNotConfigured_err (s : State) : (raiseNotConfigured s).err = true := rfl
@[simp] theorem raiseNotConfigured_sr (s : State) : (raiseNotConfigured s).sr = s.sr := rfl
@[simp] theorem raiseNotConfigured_phase (s : State) : (raiseNotConfigured s).phase = s.phase := rfl
@[simp] theorem raiseNotConfigured_inc (s : State) : (raiseNotConfigured s).inc = s.inc := rfl
@[simp] theorem raiseNotConfigured_port (s : State) : (raiseNotConfigured s).port = s.port := rfl
@[simp] theorem raiseNotConfigured_responses (s : State) : (raiseNotConfigured s).responses = s.responses ++ [⟨.notConfigured, 0⟩] := rfl

@[simp] theorem raiseIllegal_hw (s : State) : (raiseIllegal s).hw = s.hw := rfl
@[simp] theorem raiseIllegal_cfg (s : State) : (raiseIllegal s).cfg = s.cfg := rfl
@[simp] theorem raiseIllegal_err (s : State) : (raiseIllegal s).err = true := rfl
@[simp] theorem raiseIllegal_sr (s : State) : (raiseIllegal s).sr = s.sr := rfl
@[simp] theorem raiseIllegal_phase (s : State) : (raiseIllegal s).phase = s.phase := rfl
@[simp] theorem raiseIllegal_inc (s : State) : (raiseIllegal s).inc = s.inc := rfl
@[simp] theorem raiseIllegal_port (s : State) : (raiseIllegal s).port = s.port := rfl
@[simp] theorem raiseIllegal_responses (s : State) : (raiseIllegal s).responses = s.responses ++ [⟨.illegalCommand, 0⟩] := rfl

@[simp] theorem resetBlock_hw (s : State) : (resetBlock s).hw = s.hw := rfl
@[simp] theorem resetBlock_cfg (s : State) : (resetBlock s).cfg = false := rfl
@[simp] theorem resetBlock_err (s : State) : (resetBlock s).err = false := rfl
@[simp] theorem resetBlock_sr (s : State) : (resetBlock s).sr = 0 := rfl
@[simp] theorem resetBlock_phase (s : State) : (resetBlock s).phase = 0 := rfl
@[simp] theorem resetBlock_inc (s : State) : (resetBlock s).inc = 0 := rfl
@[simp] theorem resetBlock_port (s : State) : (resetBlock s).port = s.port := rfl
@[simp] theorem resetBlock_responses (s : State) : (resetBlock s).responses = s.responses := rfl

@[simp] theorem construct_hw (w : Word) (s : State) : (construct w s).hw = s.hw := rfl
@[simp] theorem construct_cfg (w : Word) (s : State) : (construct w s).cfg = true := rfl
@[simp] theorem construct_err (w : Word) (s : State) : (construct w s).err = s.err := rfl
@[simp] theorem construct_sr (w : Word) (s : State) : (construct w s).sr = w := rfl
@[simp] theorem construct_phase (w : Word) (s : State) : (construct w s).phase = 0 := rfl
@[simp] theorem construct_inc (w : Word) (s : State) : (construct w s).inc = 0 := rfl
@[simp] theorem construct_port (w : Word) (s : State) : (construct w s).port = s.port := rfl
@[simp] theorem construct_responses (w : Word) (s : State) : (construct w s).responses = s.responses := rfl

@[simp] theorem withFetchWord_hw (nbits w : Nat) (s : State) : (s.withFetchWord nbits w).hw = s.hw := rfl
@[simp] theorem withFetchWord_cfg (nbits w : Nat) (s : State) : (s.withFetchWord nbits w).cfg = s.cfg := rfl
@[simp] theorem withFetchWord_err (nbits w : Nat) (s : State) : (s.withFetchWord nbits w).err = s.err := rfl
@[simp] theorem withFetchWord_sr (nbits w : Nat) (s : State) : (s.withFetchWord nbits w).sr = s.sr := rfl
@[simp] theorem withFetchWord_phase (nbits w : Nat) (s : State) : (s.withFetchWord nbits w).phase = s.phase := rfl
@[simp] theorem withFetchWord_inc (nbits w : Nat) (s : State) : (s.withFetchWord nbits w).inc = s.inc := rfl
@[simp] theorem withFetchWord_port (nbits w : Nat) (s : State) : (s.withFetchWord nbits w).port = .command (tableWord nbits w) :: s.port := rfl
@[simp] theorem withFetchWord_responses (nbits w : Nat) (s : State) : (s.withFetchWord nbits w).responses = s.responses := rfl

/-- The response sent last is the one a command answers. -/
@[simp] theorem lastResponse_respond (st : Status) (data : Word) (s : State) :
    lastResponse (respond st data s) = some ⟨st, data⟩ := by simp [lastResponse]

@[simp] theorem lastResponse_raise (st : Status) (data : Word) (s : State) :
    lastResponse (raise st data s) = some ⟨st, data⟩ := by simp [lastResponse]

@[simp] theorem lastResponse_raiseArgument (c : Cause) (s : State) :
    lastResponse (raiseArgument c s) = some ⟨.invalidArgument, c.code⟩ := by simp [lastResponse]

@[simp] theorem lastResponse_raiseNotConfigured (s : State) :
    lastResponse (raiseNotConfigured s) = some ⟨.notConfigured, 0⟩ := by simp [lastResponse]

@[simp] theorem lastResponse_raiseIllegal (s : State) :
    lastResponse (raiseIllegal s) = some ⟨.illegalCommand, 0⟩ := by simp [lastResponse]

@[simp] theorem andThen_next (s : State) (f : State → Result) : andThen (.next s) f = f s := rfl

/-- A chain answers a next state only through the next state of its first part. -/
theorem andThen_eq_next {o : Result} {f : State → Result} {t : State} :
    andThen o f = .next t ↔ ∃ s, o = .next s ∧ f s = .next t := by
  cases o <;> simp [andThen]

end Sys2Proof.Machine
end

