-- ==== Sys2Proof/Laws/Ops.lean ====
section
/-! SUPPORT. What a valid configuration guarantees (00_scope R7) and what the shared reads and checks
answer. -/

namespace Sys2Proof

/-! ### A valid configuration -/

theorem Config.bounds (hw : Config) : 2 ≤ hw.N ∧ hw.N ≤ 65536 := by
  have h := hw.valid
  simp only [Config.check, Bool.and_eq_true, decide_eq_true_eq] at h
  exact h.1.1.1.1.1

theorem Config.sampleOk_of_mem (hw : Config) {w : Word} (hw' : w ∈ hw.table) : Config.sampleOk w = true := by
  have h := hw.valid
  simp only [Config.check, Bool.and_eq_true, List.all_eq_true] at h
  exact h.1.1.1.1.2 w hw'

theorem Config.noteOk_440 (hw : Config) (p : Fin 12) : Config.noteOk hw.note440[p] = true := by
  have h := hw.valid
  simp only [Config.check, Bool.and_eq_true, List.all_eq_true] at h
  exact h.1.1.1.2 _ (by simp)

theorem Config.noteOk_432 (hw : Config) (p : Fin 12) : Config.noteOk hw.note432[p] = true := by
  have h := hw.valid
  simp only [Config.check, Bool.and_eq_true, List.all_eq_true] at h
  exact h.1.1.2 _ (by simp)

theorem Config.noteA (hw : Config) : hw.note440[0] = Config.hz440 ∧ hw.note432[0] = Config.hz432 := by
  have h := hw.valid
  simp only [Config.check, Bool.and_eq_true, beq_iff_eq] at h
  exact ⟨h.1.2, h.2⟩

namespace Machine

/-! ### Table reads -/

theorem memRead_eq_none {hw : Config} {a : Nat} : memRead hw a = none ↔ hw.N ≤ a := by
  simp [memRead, Config.N]

/-- A read below N answers an entry (20_memory R33). -/
theorem memRead_of_lt {hw : Config} {a : Nat} (h : a < hw.N) : ∃ w, memRead hw a = some w := by
  cases hr : memRead hw a with
  | none => exact absurd (memRead_eq_none.1 hr) (by omega)
  | some w => exact ⟨w, rfl⟩

/-- What a read answers is a finite word in [-1, 1] (00_scope R7). -/
theorem memRead_ok {hw : Config} {a : Nat} {w : Word} (h : memRead hw a = some w) :
    F32.fin w = true ∧ F32.magUnits w ≤ F32.one := by
  have := hw.sampleOk_of_mem (List.mem_of_getElem? h)
  simpa [Config.sampleOk] using this

/-- A note frequency is finite and above 0 (00_scope R7). -/
theorem lutRead_ok (hw : Config) (h : Standard) (p : Fin 12) :
    F32.fin (lutRead hw h p) = true ∧ F32.isPos (lutRead hw h p) = true := by
  have : Config.noteOk (lutRead hw h p) = true := by
    cases h
    · exact hw.noteOk_440 p
    · exact hw.noteOk_432 p
  simpa [Config.noteOk] using this

/-! ### Operand checks -/

theorem sampleRateOk_iff {w : Word} : sampleRateOk w = true ↔ F32.fin w = true ∧ 0 < F32.val w := by
  simp [sampleRateOk, F32.isPos_iff]

theorem frequencyOk_iff {w : Word} : frequencyOk w = true ↔ F32.fin w = true ∧ 0 ≤ F32.val w := by
  simp [frequencyOk, F32.isNonneg_iff]

theorem divisorOk_iff {w : Word} : divisorOk w = true ↔ F32.fin w = true ∧ 0 < F32.val w := by
  simp [divisorOk, F32.isPos_iff]

theorem addendOk_iff {w : Word} : addendOk w = true ↔ F32.fin w = true ∧ 0 ≤ F32.val w := by
  simp [addendOk, F32.isNonneg_iff]

theorem standardOf_eq_some {std : BitVec 16} {h : Standard} :
    standardOf std = some h ↔ (std = 440 ∧ h = .hz440) ∨ (std = 432 ∧ h = .hz432) := by
  unfold standardOf
  split
  · rename_i hs; subst hs; cases h <;> simp
  · split
    · rename_i hs; subst hs; cases h <;> simp
    · simp_all

theorem standardOf_eq_none {std : BitVec 16} : standardOf std = none ↔ std ≠ 440 ∧ std ≠ 432 := by
  unfold standardOf
  split
  · simp_all
  · split <;> simp_all

/-! ### The parts of SETF and NEXT -/

theorem increment_eq_some {N : Nat} {f r q : Word} :
    increment N f r = some q ↔
      F32.fin (F32.mulNat f N) = true ∧ F32.fin (F32.div (F32.mulNat f N) r) = true ∧
        F32.div (F32.mulNat f N) r = q := by
  by_cases hm : F32.fin (F32.mulNat f N) = true <;>
    by_cases hq : F32.fin (F32.div (F32.mulNat f N) r) = true <;> simp [increment, hm, hq]

theorem increment_eq_none {N : Nat} {f r : Word} :
    increment N f r = none ↔
      ¬ (F32.fin (F32.mulNat f N) = true ∧ F32.fin (F32.div (F32.mulNat f N) r) = true) := by
  by_cases hm : F32.fin (F32.mulNat f N) = true <;>
    by_cases hq : F32.fin (F32.div (F32.mulNat f N) r) = true <;> simp [increment, hm, hq]

theorem sample_eq_some {hw : Config} {phase out : Word} :
    sample hw phase = some out ↔ ∃ t0 t1, memRead hw (index0 phase) = some t0 ∧
      memRead hw (index1 hw.N phase) = some t1 ∧ out = interpolate phase t0 t1 := by
  simp only [sample]
  split
  · rename_i a b ha hb
    simp [ha, hb, eq_comm]
  · rename_i h
    simp only [reduceCtorEq, false_iff, not_exists]
    rintro t0 t1 ⟨h0, h1, -⟩
    exact h t0 t1 h0 h1

/-- The index after the phase's is always an address of the table (41_oscillator R88). -/
theorem index1_lt (hw : Config) (phase : Word) : index1 hw.N phase < hw.N :=
  Nat.mod_lt _ (by have := hw.bounds; omega)

/-- The phase in units of 2^(-149) and its index (41_oscillator R88). -/
theorem index0_lt_iff {N : Nat} {phase : Word} (h : 0 ≤ F32.val phase) :
    index0 phase < N ↔ F32.val phase < N := by
  have hu := F32.units_of_nonneg ((F32.val_nonneg_iff _).1 h)
  rw [F32.val_lt_nat_iff, hu, index0, F32.floorNat, Nat.div_lt_iff_lt_mul (by decide)]
  exact_mod_cast Iff.rfl

/-- Below N the sample is defined (41_oscillator R85). -/
theorem sample_isSome {hw : Config} {phase : Word} (h : 0 ≤ F32.val phase) (hlt : F32.val phase < hw.N) :
    ∃ out, sample hw phase = some out := by
  obtain ⟨t0, h0⟩ := memRead_of_lt ((index0_lt_iff h).2 hlt)
  obtain ⟨t1, h1⟩ := memRead_of_lt (index1_lt hw phase)
  exact ⟨_, sample_eq_some.2 ⟨t0, t1, h0, h1, rfl⟩⟩

open F32 in
/-- The interpolation of two entries in [-1, 1] is a finite word in [-1, 1] (41_oscillator R90). -/
theorem interpolate_range {p t0 t1 : Word} (hp : fin p = true) (h0 : 0 ≤ units p)
    (ht0 : magUnits t0 ≤ one) (ht1 : magUnits t1 ≤ one) :
    fin (interpolate p t0 t1) = true ∧ magUnits (interpolate p t0 t1) ≤ one := by
  obtain ⟨hs, hfin, hm⟩ := subNat_floor_spec hp h0
  set fr := subNat p (floorNat p) with hfr
  have hfrlt : magUnits fr ≤ one := by rw [hm]; exact (Nat.mod_lt _ one_pos_nat).le
  have hur : units fr = magUnits fr := units_of_sign_false hs
  have hw : code (oneSub fr) = rndMag (one - magUnits fr) 1 := by
    rw [oneSub, code_rndUnits, hur]; congr 1; omega
  have hwfin : fin (oneSub fr) = true := by
    rw [fin_iff_code, hw]; exact lt_of_le_of_lt (rndMag_le_one (by omega)) (by decide)
  have h1 := magUnits_mul_le hwfin ht0
  have h2 := magUnits_mul_le hfin ht1
  have h3 := rndMag_oneSub hfrlt
  rw [magUnits_eq (oneSub fr), hw] at h1
  have hc : code (interpolate p t0 t1) ≤ 0x3F800000 := by
    rw [interpolate, code_add]
    apply rndMag_le_one
    have h4 := natAbs_units (mul (oneSub fr) t0)
    have h5 := natAbs_units (mul fr t1)
    show (units (mul (oneSub fr) t0) + units (mul fr t1)).natAbs ≤ _
    have h6 : (2 : ℕ) ^ 124 ≤ 2 ^ 125 := by decide
    omega
  exact ⟨(fin_iff_code _).2 (lt_of_le_of_lt hc (by decide)),
    by rw [magUnits_eq, ← unitsOfCode_one]; exact unitsOfCode_le_iff.2 hc⟩

end Machine

end Sys2Proof
end

