-- ==== Sys2Proof/Laws/Exec.lean ====
section
/-! SUPPORT. What each command can do, said once: if it answers a next state, which one and when. -/

namespace Sys2Proof.Machine

theorem execInit_cases {w : Word} {s t : State} (h : execInit w s = .next t) :
    (sampleRateOk w = true ∧ t = respond .ok 0 (construct w s)) ∨
    (sampleRateOk w = false ∧ t = raiseArgument .badSampleRate { s with cfg := false }) := by
  unfold execInit at h
  split at h
  · exact .inl ⟨‹_›, (Host.Outcome.next.inj h).symm⟩
  · exact .inr ⟨Bool.eq_false_iff.2 ‹_›, (Host.Outcome.next.inj h).symm⟩

theorem execSetf_cases {w : Word} {s t : State} (h : execSetf w s = .next t) :
    (s.cfg = false ∧ t = raiseNotConfigured s) ∨
    (s.cfg = true ∧ frequencyOk w = false ∧ t = raiseArgument .badFrequency s) ∨
    (s.cfg = true ∧ frequencyOk w = true ∧ divisorOk s.sr = true ∧ increment s.hw.N w s.sr = none ∧
      t = raiseArgument .incrementOverflow s) ∨
    (s.cfg = true ∧ frequencyOk w = true ∧ divisorOk s.sr = true ∧
      ∃ q, increment s.hw.N w s.sr = some q ∧ t = respond .ok 0 { s with inc := q }) := by
  unfold execSetf at h
  split at h
  · exact .inl ⟨by simp_all, (Host.Outcome.next.inj h).symm⟩
  · rename_i hc
    have hc : s.cfg = true := by simpa using hc
    split at h
    · exact .inr (.inl ⟨hc, by simp_all, (Host.Outcome.next.inj h).symm⟩)
    · rename_i hf
      have hf : frequencyOk w = true := by simpa using hf
      split at h
      · cases h
      · rename_i hd
        have hd : divisorOk s.sr = true := by simpa using hd
        split at h
        · exact .inr (.inr (.inl ⟨hc, hf, hd, ‹_›, (Host.Outcome.next.inj h).symm⟩))
        · exact .inr (.inr (.inr ⟨hc, hf, hd, _, ‹_›, (Host.Outcome.next.inj h).symm⟩))

theorem execNext_cases {s t : State} (h : execNext s = .next t) :
    (s.cfg = false ∧ t = raiseNotConfigured s) ∨
    (s.cfg = true ∧ addendOk s.phase = true ∧ addendOk s.inc = true ∧ ∃ out, sample s.hw s.phase = some out ∧
      t = respond .ok out { s with phase := advance s.hw.N s.phase s.inc }) := by
  unfold execNext at h
  split at h
  · exact .inl ⟨by simp_all, (Host.Outcome.next.inj h).symm⟩
  · rename_i hc
    have hc : s.cfg = true := by simpa using hc
    split at h
    · cases h
    · rename_i ha
      have ha : addendOk s.phase = true ∧ addendOk s.inc = true := by simpa using ha
      split at h
      · cases h
      · exact .inr ⟨hc, ha.1, ha.2, _, ‹_›, (Host.Outcome.next.inj h).symm⟩

theorem execResolve_cases {std : BitVec 16} {c1 c0 : BitVec 8} {s t : State}
    (h : execResolve std c1 c0 s = .next t) :
    (standardOf std = none ∧ t = raiseArgument .unsupportedStandard s) ∨
    (∃ hz, standardOf std = some hz ∧ pitchClass c0 c1 = none ∧ t = respond .unknownNote defaultFreq s) ∨
    (∃ hz p, standardOf std = some hz ∧ pitchClass c0 c1 = some p ∧ t = respond .ok (lutRead s.hw hz p) s) := by
  unfold execResolve at h
  split at h
  · exact .inl ⟨‹_›, (Host.Outcome.next.inj h).symm⟩
  · split at h
    · exact .inr (.inl ⟨_, ‹_›, ‹_›, (Host.Outcome.next.inj h).symm⟩)
    · exact .inr (.inr ⟨_, _, ‹_›, ‹_›, (Host.Outcome.next.inj h).symm⟩)

theorem execRd_cases {idx : BitVec 4} {s t : State} (h : execRd idx s = .next t) :
    (readRegOf idx = none ∧ t = raiseIllegal s) ∨
    (∃ r, readRegOf idx = some r ∧ r.needsOscillator = true ∧ s.cfg = false ∧ t = raiseNotConfigured s) ∨
    (∃ r, readRegOf idx = some r ∧ (r.needsOscillator = true → s.cfg = true) ∧
      t = respond .ok (readReg r s) s) := by
  unfold execRd at h
  split at h
  · exact .inl ⟨‹_›, (Host.Outcome.next.inj h).symm⟩
  · rename_i r hr
    split at h
    · rename_i hn
      have hn : r.needsOscillator = true ∧ s.cfg = false := by simpa using hn
      exact .inr (.inl ⟨r, hr, hn.1, hn.2, (Host.Outcome.next.inj h).symm⟩)
    · rename_i hn
      refine .inr (.inr ⟨r, hr, ?_, (Host.Outcome.next.inj h).symm⟩)
      simpa using hn

theorem execRdtab_cases {tidx : BitVec 16} {s t : State} (h : execRdtab tidx s = .next t) :
    (memRead s.hw tidx.toNat = none ∧ t = raiseArgument .badIndex s) ∨
    (∃ w, memRead s.hw tidx.toNat = some w ∧ t = respond .ok w s) := by
  unfold execRdtab at h
  split at h
  · exact .inl ⟨‹_›, (Host.Outcome.next.inj h).symm⟩
  · exact .inr ⟨_, ‹_›, (Host.Outcome.next.inj h).symm⟩

/-- What any command can do: it sends one response, sets ERR exactly when that response is an error,
and leaves the configuration and the host's pending events. -/
theorem exec_answers {i : Instr} {s t : State} (h : exec i s = .next t) :
    ∃ r : Response, t.responses = s.responses ++ [r] ∧ t.err = (s.err || r.status.setsErr) ∧
      t.hw = s.hw ∧ t.port = s.port := by
  cases i with
  | init w =>
    obtain ⟨-, rfl⟩ | ⟨-, rfl⟩ := execInit_cases (show execInit w s = .next t from h) <;> simp [Status.setsErr]
  | setf w =>
    obtain ⟨-, rfl⟩ | ⟨-, -, rfl⟩ | ⟨-, -, -, -, rfl⟩ | ⟨-, -, -, q, -, rfl⟩ := execSetf_cases (show execSetf w s = .next t from h) <;>
      simp [Status.setsErr]
  | next =>
    obtain ⟨-, rfl⟩ | ⟨-, -, -, out, -, rfl⟩ := execNext_cases (show execNext s = .next t from h) <;> simp [Status.setsErr]
  | resolve std c1 c0 =>
    obtain ⟨-, rfl⟩ | ⟨hz, -, -, rfl⟩ | ⟨hz, p, -, -, rfl⟩ := execResolve_cases (show execResolve std c1 c0 s = .next t from h) <;> simp [Status.setsErr]
  | rd idx =>
    obtain ⟨-, rfl⟩ | ⟨r, -, -, -, rfl⟩ | ⟨r, -, -, rfl⟩ := execRd_cases (show execRd idx s = .next t from h) <;> simp [Status.setsErr]
  | rdtab tidx =>
    obtain ⟨-, rfl⟩ | ⟨w, -, rfl⟩ := execRdtab_cases (show execRdtab tidx s = .next t from h) <;> simp [Status.setsErr]

/-- A command word is the command it decodes to, or executes as Illegal (30_encoding R56). -/
theorem runCommand_cases {c : CommandWord} {s t : State} (h : runCommand c s = .next t) :
    (∃ i, decode c = .ok i ∧ exec i s = .next t) ∨
    (∃ e, decode c = .error e ∧ t = raiseIllegal s) := by
  unfold runCommand at h
  split at h
  · exact .inl ⟨_, ‹_›, h⟩
  · exact .inr ⟨_, ‹_›, (Host.Outcome.next.inj h).symm⟩

/-- A step is idle, accepts a command word, or accepts a reset. -/
theorem step_cases {s t : State} (h : step s = .next t) :
    (s.port = [] ∧ t = s) ∨
    (∃ c rest, s.port = .command c :: rest ∧ runCommand c { s with port := rest } = .next t) ∨
    (∃ rest, s.port = .reset :: rest ∧ t = resetBlock { s with port := rest }) := by
  unfold step at h
  split at h
  · exact .inl ⟨‹_›, (Host.Outcome.next.inj h).symm⟩
  · rename_i e rest hp
    cases e with
    | command c => exact .inr (.inl ⟨c, rest, hp, h⟩)
    | reset => exact .inr (.inr ⟨rest, hp, (Host.Outcome.next.inj h).symm⟩)

end Sys2Proof.Machine
end

