-- ==== Sys2Proof/Laws/PerInstr.lean ====
section
/-! SUPPORT. One lemma per command: which number its word is, field by field (30_encoding R48, R50). -/

namespace Sys2Proof.Laws.EncodingFields

/-- The word of a command as a number: `OP` at bit 36, `RSV` = 0, the operand fields of its format. -/
def Statement (i : Instr) : Prop :=
  (encode i).toNat =
    match i with
    | .init w => 0x1000000000 + w.toNat
    | .setf w => 0x2000000000 + w.toNat
    | .next => 0x3000000000
    | .resolve std c1 c0 => 0x4000000000 + (std.toNat * 2 ^ 16 + c1.toNat * 2 ^ 8 + c0.toNat)
    | .rd idx => 0x5000000000 + idx.toNat
    | .rdtab tidx => 0x6000000000 + tidx.toNat

theorem init (w : Word) : Statement (.init w) := by
  simp [Statement, encode, opcode, operandWord, toNat_commandWord]

theorem setf (w : Word) : Statement (.setf w) := by
  simp [Statement, encode, opcode, operandWord, toNat_commandWord]

theorem next : Statement .next := by
  simp [Statement, encode, opcode, operandWord, toNat_commandWord]

theorem resolve (std : BitVec 16) (c1 c0 : BitVec 8) : Statement (.resolve std c1 c0) := by
  have h : (operandWord (.resolve std c1 c0)).toNat = (std ++ c1 ++ c0).toNat := rfl
  rw [toNat_append_eq, toNat_append_eq] at h
  simp only [Statement, encode, toNat_commandWord, h, opcode]
  simp; omega

theorem rd (idx : BitVec 4) : Statement (.rd idx) := by
  have h : (operandWord (.rd idx)).toNat = (0#28 ++ idx).toNat := rfl
  rw [toNat_append_eq] at h
  simp only [Statement, encode, toNat_commandWord, h, opcode]
  simp

theorem rdtab (tidx : BitVec 16) : Statement (.rdtab tidx) := by
  have h : (operandWord (.rdtab tidx)).toNat = (0#16 ++ tidx).toNat := rfl
  rw [toNat_append_eq] at h
  simp only [Statement, encode, toNat_commandWord, h, opcode]
  simp

end Sys2Proof.Laws.EncodingFields
end

