-- ==== Sys2Proof/Laws/Safety.lean ====
section
/-! SUPPORT. The invariant of 10_state R21: what it depends on, and what NEXT and SETF make of it. -/

namespace Sys2Proof.Machine

theorem core_run_next (M : Host.Core) (k : Nat) (s t : M.State) (h : M.step s = .next t) : M.run (k + 1) s = M.run k t := by
  rw [Host.Core.run.eq_def]; simp only; rw [h]

theorem core_run_fault (M : Host.Core) (k : Nat) (s : M.State) (r) (h : M.step s = .fault r) : M.run (k + 1) s = .fault r := by
  rw [Host.Core.run.eq_def]; simp only; rw [h]

theorem core_run_refused (M : Host.Core) (k : Nat) (s : M.State) (r) (h : M.step s = .refused r) : M.run (k + 1) s = .refused r := by
  rw [Host.Core.run.eq_def]; simp only; rw [h]

/-- The host's run of the core is `steps`. -/
theorem core_run (k : Nat) (s : State) : core.run k s = steps k s := by
  induction k generalizing s with
  | zero => rfl
  | succ k ih =>
    show _ = andThen (step s) (steps k)
    cases h : step s with
    | next t => exact (core_run_next core k s t h).trans (ih t)
    | fault r => exact core_run_fault core k s r h
    | refused r => exact core_run_refused core k s r h

/-- A value above 0 has its sign bit clear. -/
theorem sign_of_pos {w : Word} (h : 0 < F32.val w) : F32.sign w = false := by
  have h1 := (F32.val_pos_iff w).1 h
  by_contra hs
  have := (F32.units_neg_iff h1.ne').2 (by simpa using hs)
  omega

/-- A value at or above 0 has its sign bit clear or is -0. -/
theorem sign_of_nonneg {w : Word} (h : 0 ≤ F32.val w) : F32.sign w = false ∨ w = 0x80000000 := by
  have h1 := (F32.val_nonneg_iff w).1 h
  cases hs : F32.sign w
  · exact .inl rfl
  · right
    have hz : F32.units w = 0 := by
      by_contra h0
      have := (F32.units_neg_iff h0).2 hs
      omega
    rw [F32.eq_withSign w, hs, F32.units_eq_zero_iff.1 hz]; rfl

/-- A state with zero phase and increment and a proper sample rate meets R21. -/
theorem inv_of_zero {s : State} (hp : s.phase = 0) (hi : s.inc = 0) (hs : F32.fin s.sr = true)
    (hr : s.cfg = true → 0 < F32.val s.sr) : s.Inv := by
  have h0 : F32.val 0 = 0 := by
    rw [F32.val_eq_units, show F32.units 0 = 0 by decide]; simp
  have hN := s.hw.bounds
  refine ⟨⟨hs, by rw [hp]; decide, by rw [hi]; decide⟩, hr, ⟨by rw [hi, h0], by rw [hi]; decide⟩, ⟨by rw [hp, h0], ?_, by rw [hp]; decide⟩⟩
  rw [hp, h0]; exact_mod_cast (by omega : 0 < s.hw.N)

/-- R21 looks at nothing but the configuration, CFG and the three registers. -/
theorem State.Inv.congr {s t : State} (h : s.Inv) (h1 : t.hw = s.hw) (h2 : t.cfg = s.cfg) (h3 : t.sr = s.sr)
    (h4 : t.phase = s.phase) (h5 : t.inc = s.inc) : t.Inv := by
  obtain ⟨a, b, c, d⟩ := h
  constructor
  · simpa only [RegistersFinite, h3, h4, h5] using a
  · simpa only [SampleRatePositive, h2, h3] using b
  · simpa only [IncrementNonneg, h5] using c
  · simpa only [PhaseInRange, h1, h4] using d

/-- In a state that meets R21 the sum is finite and the advanced phase is a finite word, sign clear, below N
(41_oscillator R87). -/
theorem advance_spec {s : State} (h : s.Inv) :
    F32.fin (F32.add s.phase s.inc) = true ∧ 0 ≤ F32.units (F32.add s.phase s.inc) ∧
    F32.sign (advance s.hw.N s.phase s.inc) = false ∧ F32.fin (advance s.hw.N s.phase s.inc) = true ∧
      F32.magUnits (advance s.hw.N s.phase s.inc) < s.hw.N * F32.one := by
  have hN := s.hw.bounds
  obtain ⟨h1, h2⟩ := F32.add_fin h.finite.2.2 ((F32.val_nonneg_iff _).1 h.phase.1)
    ((F32.val_nonneg_iff _).1 h.increment.1) hN.2 ((F32.val_lt_nat_iff _ _).1 h.phase.2.1)
  obtain ⟨h3, h4, h5⟩ := F32.modNat_spec h1 (by omega : 0 < s.hw.N) hN.2
  refine ⟨h1, h2, h3, h4, ?_⟩
  rw [advance, h5]
  exact Nat.mod_lt _ (Nat.mul_pos (by omega) F32.one_pos_nat)

/-- An increment that SETF stores is finite, at or above 0, and of the negative-signed words at most -0
(41_oscillator R82). -/
theorem increment_spec {N : Nat} {f r q : Word} (hf : F32.sign f = false ∨ f = 0x80000000) (hr : F32.sign r = false)
    (h : increment N f r = some q) :
    F32.fin q = true ∧ 0 ≤ F32.val q ∧ (F32.sign q = true → q = 0x80000000) := by
  obtain ⟨-, h2, rfl⟩ := increment_eq_some.1 h
  refine ⟨h2, ?_⟩
  rcases hf with hf | rfl
  · have hs : F32.sign (F32.div (F32.mulNat f N) r) = false := by simp [hf, hr]
    refine ⟨?_, by simp [hs]⟩
    rw [F32.val_nonneg_iff, F32.units_of_sign_false hs]; omega
  · have hc : F32.code (F32.mulNat 0x80000000 N) = 0 := by
      rw [F32.code_mulNat, show F32.magUnits 0x80000000 = 0 by decide]; simp
    have hm : F32.magUnits (F32.mulNat 0x80000000 N) = 0 := by rw [F32.magUnits_eq, hc]; simp
    have hc2 : F32.code (F32.div (F32.mulNat 0x80000000 N) r) = 0 := by
      rw [F32.code_div, hm]; simp
    have hs : F32.sign (F32.div (F32.mulNat 0x80000000 N) r) = true := by
      rw [F32.sign_div, F32.sign_mulNat, hr]; decide
    constructor
    · rw [F32.val_nonneg_iff, F32.units_eq_zero_iff.2 hc2]
    · intro _; rw [F32.eq_withSign (F32.div _ _), hs, hc2]; rfl

/-- In a ready state NEXT answers the sample and advances (41_oscillator R85). -/
theorem next_spec {s : State} (hr : s.Ready) : ∃ out, sample s.hw s.phase = some out ∧
    execNext s = .next (respond .ok out { s with phase := advance s.hw.N s.phase s.inc }) := by
  obtain ⟨hinv, hc⟩ := hr
  obtain ⟨out, ho⟩ := sample_isSome hinv.phase.1 hinv.phase.2.1
  refine ⟨out, ho, ?_⟩
  have h1 : addendOk s.phase = true := addendOk_iff.2 ⟨hinv.finite.2.1, hinv.phase.1⟩
  have h2 : addendOk s.inc = true := addendOk_iff.2 ⟨hinv.finite.2.2, hinv.increment.1⟩
  simp [execNext, hc, h1, h2, ho]

end Sys2Proof.Machine
end

