-- ==== Sys2Proof/Laws/Sequencer.lean ====
section
/-! SUPPORT. The laws of the host's playback layer: what a NEXT of a segment answers, and what drawing a
segment can do (43_sink_and_sequencer R114, R118, R122). -/

namespace Sys2Proof.Machine

/-- A NEXT word runs `execNext`. -/
theorem runCommand_next (s : State) : runCommand (encode .next) s = execNext s := rfl

/-- In a state that meets 10_state R21 a NEXT answers one response, an OK sample or NOT_CONFIGURED, and
keeps R21. -/
theorem execNext_keeps {s : State} (h : s.Inv) :
    ∃ t, execNext s = .next t ∧ t.Inv ∧
      ((∃ out, lastResponse t = some ⟨.ok, out⟩) ∨ lastResponse t = some ⟨.notConfigured, 0⟩) := by
  cases hc : s.cfg with
  | false =>
    exact ⟨raiseNotConfigured s, by simp [execNext, hc], h.congr rfl rfl rfl rfl rfl, .inr (by simp)⟩
  | true =>
    obtain ⟨out, -, ho⟩ := next_spec ⟨h, hc⟩
    obtain ⟨-, -, h1, h2, h3⟩ := advance_spec h
    have hu := F32.units_of_sign_false h1
    refine ⟨_, ho, ⟨⟨h.finite.1, h2, h.finite.2.2⟩, h.rate, h.increment, ?_, ?_, ?_⟩, .inl ⟨out, by simp⟩⟩
    · exact (F32.val_nonneg_iff _).2 (by simp [hu])
    · exact (F32.val_lt_nat_iff _ _).2 (by simp only [respond_phase, hu]; exact_mod_cast h3)
    · intro h4
      simp only [respond_phase] at h4
      rw [h4] at h1; exact absurd h1 (by decide)

/-- All that drawing a segment can do, from a state that meets 10_state R21: it ends, keeps R21, and hands
the sink at most `k` samples, exactly `k` when it finishes and what the sink takes when the sink fails. -/
theorem draw_spec (k : Nat) (sink : Option Nat) (out : List Word) (s : State) (h : s.Inv) :
    ∃ p, draw sink k out s = .next p ∧ p.state.Inv ∧ p.samples.length ≤ out.length + k ∧
      (p.ended = .finished → p.samples.length = out.length + k) ∧
      (∀ m, sink = some m → p.samples.length ≤ out.length + m ∧
        (p.ended = .sinkFailed → p.samples.length = out.length + m)) ∧
      (p.ended = .sinkFailed → sink ≠ none) := by
  induction k generalizing sink out s with
  | zero => exact ⟨_, rfl, h, by simp⟩
  | succ k ih =>
    obtain ⟨t, ht, hi, ⟨data, hd⟩ | hn⟩ := execNext_keeps h
    · cases sink with
      | none =>
        obtain ⟨p, hp, h1, h2, h3, -, h5⟩ := ih none (out ++ [data]) t hi
        simp only [List.length_append, List.length_singleton] at h2 h3
        refine ⟨p, by simp only [draw, runCommand_next, ht, hd, hp], h1, by omega, fun he => ?_, by simp, h5⟩
        have := h3 he; omega
      | some m =>
        cases m with
        | zero => exact ⟨⟨t, out, .sinkFailed⟩, by simp only [draw, runCommand_next, ht, hd], hi, by simp⟩
        | succ m =>
          obtain ⟨p, hp, h1, h2, h3, h4, -⟩ := ih (some m) (out ++ [data]) t hi
          obtain ⟨h4, h5⟩ := h4 m rfl
          simp only [List.length_append, List.length_singleton] at h2 h3 h4 h5
          refine ⟨p, by simp only [draw, runCommand_next, ht, hd, hp], h1, by omega, fun he => ?_, ?_, by simp⟩
          · have := h3 he; omega
          · rintro m' hm
            obtain rfl : m + 1 = m' := by simpa using hm
            exact ⟨by omega, fun he => by have := h5 he; omega⟩
    · exact ⟨⟨t, out, .hardError⟩, by simp only [draw, runCommand_next, ht, hn], hi, by simp⟩

end Sys2Proof.Machine
end

