-- ==== Sys2Proof/Tests/Slice0.lean ====
section
/-! SUPPORT. The model's own tests. Expected words and results are those of 95_test_vectors (T1 to T8,
P2, P3) and of the rules' own tables; each theorem names its source. `witness_` theorems show that the
hypotheses of the statements can be met together. -/

namespace Sys2Proof.Tests

open Sys2Proof.Machine

-- One kernel evaluation at a time: side by side they need more memory for threads than they use.
set_option Elab.async false

/-! ### Helpers -/

/-- The table of 95_test_vectors P2: N = 4, one period of the sine (T2). -/
def n4 : Config where
  table := [0x00000000, 0x3F800000, 0x00000000, 0xBF800000]
  note440 := defaultNote440
  note432 := defaultNote432
  valid := by decide +kernel

/-- A block with N = 4 in the state `(CFG, ERR, sr, phase, inc)`. -/
def block (cfg err : Bool) (sr phase inc : Word) : State := ⟨n4, cfg, err, sr, phase, inc, [], []⟩

/-- After reset. -/
def blank : State := block false false 0 0 0

/-- A configured oscillator at a sample rate of 8.0. -/
def osc (phase inc : Word) : State := block true false 0x41000000 phase inc

/-- The five items of state after a command. -/
def items (o : Result) : Option (Bool × Bool × Word × Word × Word) :=
  match o with
  | .next t => some (t.cfg, t.err, t.sr, t.phase, t.inc)
  | _ => none

/-- The last response word of a command, as a number. -/
def answer (o : Result) : Option Nat :=
  match o with
  | .next t => (lastResponse t).map fun r => r.word.toNat
  | _ => none

/-- The next state a command answers, if any. -/
def nextOf (o : Result) : Option State :=
  match o with
  | .next t => some t
  | _ => none

/-- What playing leaves: CFG, ERR, the samples the sink took as numbers, and the end. -/
def playedOf (o : Host.Outcome Played Fault Refusal) : Option (Bool × Bool × List Nat × NoteEnd) :=
  match o with
  | .next p => some (p.state.cfg, p.state.err, p.samples.map BitVec.toNat, p.ended)
  | _ => none

/-- How many responses a run answers, and the last response word as a number. -/
def answers (o : Result) : Option (Nat × Option Nat) :=
  match o with
  | .next t => some (t.responses.length, (lastResponse t).map fun r => r.word.toNat)
  | _ => none

theorem next_of {o : Result} {t : State} (h : nextOf o = some t) : o = .next t := by
  cases o <;> simp_all [nextOf]

/-- R21 with CFG = 1, as a computation. -/
def readyCheck (s : State) : Bool :=
  F32.fin s.sr && F32.fin s.phase && F32.fin s.inc && s.cfg && F32.isPos s.sr && F32.isNonneg s.inc
    && (!F32.sign s.inc || s.inc == 0x80000000) && F32.isNonneg s.phase
    && decide (F32.units s.phase < s.hw.N * F32.one) && (s.phase != 0x80000000)

theorem ready_of_check {s : State} (h : readyCheck s = true) : s.Ready := by
  simp only [readyCheck, Bool.and_eq_true, decide_eq_true_eq, F32.isPos_iff, F32.isNonneg_iff] at h
  obtain ⟨⟨⟨⟨⟨⟨⟨⟨⟨h1, h2⟩, h3⟩, h4⟩, h5⟩, h6⟩, h7⟩, h8⟩, h9⟩, h10⟩ := h
  exact ⟨⟨⟨h1, h2, h3⟩, fun _ => h5, ⟨h6, fun hs => by simpa [hs] using h7⟩,
    ⟨h8, (F32.val_lt_nat_iff _ _).2 h9, by simpa using h10⟩⟩, h4⟩

/-! ### WellFormed and decoding (95 T1, 30_encoding R61) -/

theorem test_wellFormed_refuses_index_7 : (Instr.rd 7).wellFormed = false := by decide
theorem test_wellFormed_refuses_index_15 : (Instr.rd 15).wellFormed = false := by decide
theorem test_wellFormed_accepts_index_6 : (Instr.rd 6).wellFormed = true := by decide

theorem test_decode_init : decode 0b0001_0000_01000111001011000100010000000000 = .ok (.init 0x472C4400) := by decide
theorem test_decode_setf : decode 0b0010_0000_01000011110111000000000000000000 = .ok (.setf 0x43DC0000) := by decide
theorem test_decode_next : decode 0b0011_0000_00000000000000000000000000000000 = .ok .next := by decide
theorem test_decode_resolve :
    decode 0b0100_0000_0000000110110000_00100011_01000111 = .ok (.resolve 432 0x23 0x47) := by decide
theorem test_decode_rd : decode 0b0101_0000_0000000000000000000000000000_0100 = .ok (.rd 4) := by decide
theorem test_decode_rdtab : decode 0b0110_0000_0000000000000000_0000000000010000 = .ok (.rdtab 16) := by decide

/-- 95 T1, the words that select no command, by their reason. -/
theorem test_decode_refuses :
    decode 0x0000000000 = .error .reservedOpcode ∧ decode 0x7000000000 = .error .reservedOpcode ∧
    decode 0xF000000000 = .error .reservedOpcode ∧ decode 0xFFFFFFFFFF = .error .reservedBits ∧
    decode 0x1141000000 = .error .reservedBits ∧ decode 0x2F43DC0000 = .error .reservedBits ∧
    decode 0x3100000000 = .error .reservedBits ∧ decode 0x3000000001 = .error .reservedOperandBits ∧
    decode 0x4101B80041 = .error .reservedBits ∧ decode 0x5000000007 = .error .reservedIndex ∧
    decode 0x500000000F = .error .reservedIndex ∧ decode 0x5000000010 = .error .reservedOperandBits ∧
    decode 0x5100000000 = .error .reservedBits ∧ decode 0x6000010000 = .error .reservedOperandBits := by decide

theorem test_decodeTableWord : decodeTableWord 40 0x600000FFFF = some (.rdtab 65535) := by decide
theorem test_decodeTableWord_refuses : decodeTableWord 40 0x5000000007 = none := by decide

/-! ### Each command (95 T2 to T6, P2, P3) -/

/-- 95 T3, row 12: phase and increment zeroed. -/
theorem test_init_reconstructs :
    items (exec (.init 0x41800000) (osc 0x40000000 0x3F000000)) = some (true, false, 0x41800000, 0, 0) := by
  decide +kernel
/-- 95 T3, row 11: CFG cleared, the words kept. -/
theorem test_init_fails :
    items (exec (.init 0x00000000) (osc 0x40000000 0x3F000000)) =
      some (false, true, 0x41000000, 0x40000000, 0x3F000000) := by decide +kernel

/-- 95 T4: SETF 0x40FFFFFF. -/
theorem test_setf_rounds :
    items (exec (.setf 0x40FFFFFF) (osc 0x3F800000 0x3F000000)) =
      some (true, false, 0x41000000, 0x3F800000, 0x407FFFFF) := by decide +kernel
/-- 95 T4: SETF 1e38, the product overflows. -/
theorem test_setf_overflows :
    answer (exec (.setf 0x7E967699) (osc 0x3F800000 0x3F000000)) = some 0x100000005 := by decide +kernel

/-- 95 T5: the sum is a tie, rounds to N and wraps to +0. -/
theorem test_next_wraps :
    items (exec .next (osc 0x407FFFFF 0x34000000)) = some (true, false, 0x41000000, 0x00000000, 0x34000000) ∧
    answer (exec .next (osc 0x407FFFFF 0x34000000)) = some 0x0B4800000 := by decide +kernel
/-- 95 T5: 13.5 mod 4. -/
theorem test_next_skips_tables :
    items (exec .next (osc 0x40400000 0x41280000)) = some (true, false, 0x41000000, 0x3FC00000, 0x41280000) := by
  decide +kernel

/-- 42_note_registry R100: G# under 432. -/
theorem test_resolve_known : answer (exec (.resolve 432 0x23 0x47) blank) = some 0x043CBE000 := by decide +kernel
/-- 42_note_registry R101: "H" falls back to 440.0 under 432 too, with no error. -/
theorem test_resolve_unknown :
    answer (exec (.resolve 432 0x00 0x48) blank) = some 0x243DC0000 ∧
    items (exec (.resolve 432 0x00 0x48) blank) = some (false, false, 0, 0, 0) := by decide +kernel

/-- 95 P2, rows 2 and 7. -/
theorem test_rd_hardwired :
    answer (exec (.rd 6) blank) = some 0x000000004 ∧
    answer (exec (.rd 2) (osc 0 0)) = some 0x0FFFFFFFF := by decide +kernel
/-- 95 P3, rows 4 and 7. -/
theorem test_rd_status_and_phase :
    answer (exec (.rd 4) blank) = some 0x300000000 ∧
    answer (exec (.rd 3) (block true true 0x41000000 0 0)) = some 0x000000003 := by decide +kernel

/-- 95 T2: N = 4, RDTAB 3 and RDTAB 4. -/
theorem test_rdtab_edge :
    answer (exec (.rdtab 3) blank) = some 0x0BF800000 ∧ answer (exec (.rdtab 4) blank) = some 0x100000006 := by
  decide +kernel
/-- 95 T2: N = 64, RDTAB 63. -/
theorem test_rdtab_default : answer (exec (.rdtab 63) State.reset) = some 0x0BDC8BD36 := by decide +kernel

/-! ### Illegal words, reset and the step -/

/-- 95 P3, rows 13 and 16. -/
theorem test_illegal :
    answer (accept (.command 0x7000000000) (osc 0x3FC00000 0x3F000000)) = some 0x400000000 ∧
    items (accept (.command 0x5000000007) (osc 0x3FC00000 0x3F000000)) =
      some (true, true, 0x41000000, 0x3FC00000, 0x3F000000) := by decide +kernel
/-- 95 P3, row 24. -/
theorem test_reset : items (accept .reset (osc 0x3FC00000 0x3F000000)) = some (false, false, 0, 0, 0) := by decide
/-- The first step after a placed word runs it (95 P3, row 1). -/
theorem test_step_fetch : answer (step (State.reset.withFetchWord 40 0x3000000000)) = some 0x300000000 := by
  decide +kernel

/-- 95 T2: WT_NEW(65537) and WT_NEW(1) fail; two constant tables. -/
theorem test_wtNew :
    wtNew 65537 (fun _ _ => 0) = .error .badTableLength ∧ wtNew 1 (fun _ _ => 0) = .error .badTableLength ∧
    wtNew 2 (fun n _ => -(n : ℚ) / 2) = .ok [0x00000000, 0xBF000000] := by decide +kernel

/-! ### The number format (00_scope R12) and the host's layer (43 R114, R117, R122) -/

/-- 00_scope R12: the two infinities, a NaN, a normal number, the smallest subnormal's line, -0. -/
theorem test_decoded :
    F32.decoded 0x7F800000 = .infinity false ∧ F32.decoded 0xFF800000 = .infinity true ∧
    F32.decoded 0x7FC00000 = .nan ∧ F32.decoded 0xFF800001 = .nan ∧ F32.decoded 0xBF000000 = .real (-1 / 2) ∧
    F32.decoded 0x00400000 = .real (1 / 2 ^ 127) ∧ F32.decoded 0x80000000 = .real 0 := by decide +kernel

/-- R75, R80: a zero product keeps the operand's sign (00_scope R13). -/
theorem test_mulNat_zero : F32.mulNat 0x80000000 64 = 0x80000000 ∧ F32.mulNat 0x00000000 64 = 0x00000000 := by
  decide +kernel

/-- 40_wavetable R67: a table WT_NEW gives configures a block, and its entries are read. -/
theorem test_configure :
    (configure [0x3F800000, 0x80000000] defaultNote440 defaultNote432).map (fun hw =>
      answer (exec (.rdtab 1) (newBlock hw))) = some (some 0x080000000) ∧
    (configure [0x3F800000] defaultNote440 defaultNote432).isNone = true := by decide +kernel

/-- A note of two samples under the shared oscillator. -/
def sharedNote (sinkTakes : Option Nat) (react : SinkReaction) : Note := ⟨0x00, 0x41, 2, .shared, sinkTakes, react⟩

/-- R62, R122: after a RESOLVE that answers a hard error PLAY issues nothing more; else SETF and K NEXT. -/
theorem test_play :
    answers (play 415 0x00 0x41 (.samples 3) 8 (osc 0 0)) = some (1, some 0x100000004) ∧
    (answers (play 440 0x00 0x41 (.samples 3) 8 (osc 0 0))).map Prod.fst = some 5 := by decide +kernel

/-- Log 14, 70 R146: a failed INIT of a fresh note ends it as a hard error, with no sample. -/
theorem test_fresh_note_fails :
    playedOf (playNote 440 ⟨0x00, 0x41, 0, .fresh 0x00000000, none, .skipNote⟩ [] (osc 0 0)) =
      some (false, true, [], .hardError) := by decide +kernel

/-- R114: a host that skips the note its sink fails in plays the next one; one that aborts does not. The
note A at a sample rate of 8.0 steps 220 table entries, 0 modulo 4, so every sample is TABLE[0]. -/
theorem test_skip_and_abort :
    playedOf (playSequence 440 [sharedNote (some 1) .skipNote, sharedNote none .skipNote] [] (osc 0 0)) =
      some (true, false, [0, 0, 0], .finished) ∧
    playedOf (playSequence 440 [sharedNote (some 1) .abortSequence, sharedNote none .skipNote] [] (osc 0 0)) =
      some (true, false, [0], .sinkFailed) := by decide +kernel

/-! ### Witnesses: the hypotheses of the statements can be met -/

/-- The statements about ready states (SETF, NEXT, SEG): states that meet R21 with CFG = 1: at the ends of
the phase's range, between entries, and with the increments +0, -0, exactly what reaches N, and a large one.
-/
theorem witness_ready :
    (osc 0x00000000 0x3F000000).Ready ∧ (osc 0x407FFFFF 0x34000000).Ready ∧ (osc 0x40200000 0x3F000000).Ready ∧
    (osc 0x3F800000 0x00000000).Ready ∧ (osc 0x3F800000 0x80000000).Ready ∧ (osc 0x3F800000 0x7DF0BDC2).Ready ∧
    (osc 0x00000000 0x00000000).Ready ∧ (osc 0x40600000 0x3F000000).Ready :=
  ⟨ready_of_check (by decide +kernel), ready_of_check (by decide +kernel), ready_of_check (by decide +kernel),
    ready_of_check (by decide +kernel), ready_of_check (by decide +kernel), ready_of_check (by decide +kernel),
    ready_of_check (by decide +kernel), ready_of_check (by decide +kernel)⟩

/-- StepKeepsTheInvariant, StepNeverStops, PlayingANoteIsBounded, PlayingASequenceIsBounded,
IdleStepHoldsState: a state of R21 with CFG = 0 and one with an idle port. -/
theorem witness_inv : blank.Inv ∧ State.reset.Inv ∧ State.reset.port = [] := by
  have h : F32.fin (0x00000000 : Word) = true := by decide
  exact ⟨inv_of_zero rfl rfl h (by simp [blank, block]), inv_of_zero rfl rfl h (by simp [State.reset]), rfl⟩

/-- DecodeFollowsMatchAndMask, ReservedOpcodeIsIllegal, ReservedBitsAreIllegal: words at the borders of the
opcode map and of the reserved bits (30_encoding R52 to R54). -/
theorem witness_reserved :
    0x0FFFFFFFFF / 2 ^ 36 = 0 ∧ 7 ≤ 0x7000000000 / 2 ^ 36 ∧ 7 ≤ 0xFFFFFFFFFF / 2 ^ 36 ∧
    0x1141000000 / 2 ^ 32 % 2 ^ 4 ≠ 0 ∧ (0x3000000001 / 2 ^ 36 = 3 ∧ 0x3000000001 % 2 ^ 32 ≠ 0) ∧
    (0x5000000010 / 2 ^ 36 = 5 ∧ 0x5000000010 % 2 ^ 32 / 2 ^ 4 ≠ 0) ∧
    (0x5000000007 / 2 ^ 36 = 5 ∧ 6 < 0x5000000007 % 2 ^ 32 % 2 ^ 4) ∧
    (0x6000010000 / 2 ^ 36 = 6 ∧ 0x6000010000 % 2 ^ 32 / 2 ^ 16 ≠ 0) := by decide

/-- InitConstructsOrFails: the borders of the accepted words (41_oscillator R76, R77): 1, 0x7F7FFFFF; and
what is refused: +0, -0, the infinity, a NaN, a negative word. -/
theorem witness_sampleRate :
    sampleRateOk 0x00000001 = true ∧ sampleRateOk 0x7F7FFFFF = true ∧ sampleRateOk 0x00000000 = false ∧
    sampleRateOk 0x80000000 = false ∧ sampleRateOk 0x7F800000 = false ∧ sampleRateOk 0x7FC00000 = false ∧
    sampleRateOk 0xC72C4400 = false := by decide +kernel

/-- SetfFollowsItsPseudocode, FrequencyCheckRule: the borders of the accepted words (41_oscillator R79). -/
theorem witness_frequency :
    frequencyOk 0x00000000 = true ∧ frequencyOk 0x80000000 = true ∧ frequencyOk 0x7F7FFFFF = true ∧
    frequencyOk 0x80000001 = false ∧ frequencyOk 0x7F800000 = false ∧ frequencyOk 0xFF800000 = false ∧
    frequencyOk 0x7FC00000 = false := by decide +kernel

/-- SetfFollowsItsPseudocode, its two ends in a ready state: an increment, and an overflow (41_oscillator
R81). -/
theorem witness_setf_cases :
    increment 4 0x7E70BDC2 0x41000000 = some 0x7DF0BDC2 ∧ increment 4 0x7E967699 0x41000000 = none ∧
    increment 4 0x3F800000 0x00000001 = none := by decide +kernel

/-- IntegerPhaseIsExact, PeriodicityAtTheWrap, IndexLaws: a phase that is an integer, a sum that is exactly
N, and the indices at both ends of the table; the states are ready by `witness_ready`. -/
theorem witness_phase :
    F32.units 0x3F800000 = 1 * F32.one ∧ F32.units (F32.add 0x40600000 0x3F000000) = 4 * F32.one ∧
    (index0 0x00000000 = 0 ∧ index1 4 0x00000000 = 1) ∧ (index0 0x407FFFFF = 3 ∧ index1 4 0x407FFFFF = 0) := by
  decide +kernel

/-- A table whose first entry is -0 and whose second has the given word. -/
def negativeZeroTable (w : Word) (h : Config.check [0x80000000, w] defaultNote440 defaultNote432 = true) : State :=
  ⟨⟨[0x80000000, w], defaultNote440, defaultNote432, h⟩, true, false, 0x41000000, 0, 0, [], []⟩

/-- IntegerPhaseIsExact, an entry that is -0: the output is +0 when `p1` is +0, and -0 when `p1` is -0
(41_oscillator R89). -/
theorem witness_negative_zero_entry :
    (negativeZeroTable 0x3F800000 (by decide +kernel)).Ready ∧ F32.val 0x00000000 = (0 : Nat) ∧
    exec .next (negativeZeroTable 0x3F800000 (by decide +kernel)) =
      .next { negativeZeroTable 0x3F800000 (by decide +kernel) with responses := [⟨.ok, 0x00000000⟩] } ∧
    (negativeZeroTable 0xBF800000 (by decide +kernel)).Ready ∧
    exec .next (negativeZeroTable 0xBF800000 (by decide +kernel)) =
      .next { negativeZeroTable 0xBF800000 (by decide +kernel) with responses := [⟨.ok, 0x80000000⟩] } :=
  ⟨ready_of_check (by decide +kernel), by decide +kernel, next_of (by decide +kernel),
    ready_of_check (by decide +kernel), next_of (by decide +kernel)⟩

/-- NegativeZeroRule: a word that is not RD INCREMENT, run from both zeros, and RD INCREMENT, which shows
the difference (41_oscillator R84). -/
theorem witness_negative_zero :
    decode 0x3000000000 ≠ .ok (.rd 5) ∧ (osc 0 0).Ready ∧
    answer (exec (.rd 5) (osc 0 0x80000000)) = some 0x080000000 ∧
    answer (exec (.rd 5) (osc 0 0x00000000)) = some 0x000000000 :=
  ⟨by decide, ready_of_check (by decide +kernel), by decide +kernel, by decide +kernel⟩

/-- ResolveFollowsItsPseudocode, the operands: both standards, an unsupported one, the first and the last
name, an unknown one. -/
theorem witness_resolve :
    standardOf 440 = some .hz440 ∧ standardOf 432 = some .hz432 ∧ standardOf 441 = none ∧ standardOf 0 = none ∧
    pitchClass 0x41 0x00 = some 0 ∧ pitchClass 0x47 0x23 = some 11 ∧ pitchClass 0x48 0x00 = none := by decide

/-- RdFollowsItsPseudocode: the indices at the borders of their cases (10_state R24). -/
theorem witness_rd :
    (readRegOf 0).map ReadReg.needsOscillator = some false ∧ (readRegOf 1).map ReadReg.needsOscillator = some true ∧
    (readRegOf 3).map ReadReg.needsOscillator = some false ∧ (readRegOf 5).map ReadReg.needsOscillator = some true ∧
    (readRegOf 6).map ReadReg.needsOscillator = some false ∧ readRegOf 7 = none ∧ readRegOf 15 = none := by decide

/-- CfgFlagRule, RegistersWrittenOnlyBySuccess: a command that sets CFG and writes `sr`. -/
theorem witness_cfg_set :
    accept (.command 0x1041000000) blank =
      .next { blank with cfg := true, sr := 0x41000000, responses := [⟨.ok, 0⟩] } :=
  next_of (by decide +kernel)

/-- CfgFlagRule, ErrorsArePrecise, ErrFlagRule: a failed INIT, which clears CFG and sets ERR. -/
theorem witness_cfg_cleared :
    accept (.command 0x1000000000) (osc 0 0) =
      .next { osc 0 0 with cfg := false, err := true, responses := [⟨.invalidArgument, 1⟩] } :=
  next_of (by decide +kernel)

/-- RegistersWrittenOnlyBySuccess, CommandFrames, StepKeepsTheInvariant: NEXT writes `phase`. -/
theorem witness_phase_written :
    accept (.command 0x3000000000) (osc 0x40200000 0x3F000000) =
      .next { osc 0x40400000 0x3F000000 with responses := [⟨.ok, 0xBF000000⟩] } :=
  next_of (by decide +kernel)

/-- RegistersWrittenOnlyBySuccess, CommandFrames: SETF writes `inc`. -/
theorem witness_inc_written :
    accept (.command 0x203F800000) (osc 0x3F800000 0) =
      .next { osc 0x3F800000 0x3F000000 with responses := [⟨.ok, 0⟩] } :=
  next_of (by decide +kernel)

/-- ErrorsArePrecise, CheckOrder, OneResponsePerCommand: NOT_CONFIGURED and ILLEGAL_COMMAND. -/
theorem witness_errors :
    accept (.command 0x3000000000) blank = .next { blank with err := true, responses := [⟨.notConfigured, 0⟩] } ∧
    accept (.command 0x3000000001) blank = .next { blank with err := true, responses := [⟨.illegalCommand, 0⟩] } :=
  ⟨next_of (by decide +kernel), next_of (by decide +kernel)⟩

/-- StatusesByCommand, SetnIsResolveThenSetf, PlayIsSetnThenSegment, ResolvedFrequenciesAreAccepted,
CheckOrder: RESOLVE with each of its statuses. -/
theorem witness_resolve_statuses :
    exec (.resolve 440 0x00 0x41) (osc 0 0) = .next { osc 0 0 with responses := [⟨.ok, 0x43DC0000⟩] } ∧
    exec (.resolve 432 0x00 0x48) (osc 0 0) = .next { osc 0 0 with responses := [⟨.unknownNote, 0x43DC0000⟩] } ∧
    exec (.resolve 415 0x00 0x48) (osc 0 0) =
      .next { osc 0 0 with err := true, responses := [⟨.invalidArgument, 4⟩] } :=
  ⟨next_of (by decide +kernel), next_of (by decide +kernel), next_of (by decide +kernel)⟩

/-- AnswersAreFinite, StatusesByCommand: OK responses of RD and RDTAB, in a state of R21. -/
theorem witness_reads :
    exec (.rd 4) (osc 0x40200000 0) = .next { osc 0x40200000 0 with responses := [⟨.ok, 0x40200000⟩] } ∧
    exec (.rdtab 3) (osc 0x40200000 0) = .next { osc 0x40200000 0 with responses := [⟨.ok, 0xBF800000⟩] } ∧
    (osc 0x40200000 0).Inv :=
  ⟨next_of (by decide +kernel), next_of (by decide +kernel), (ready_of_check (by decide +kernel)).inv⟩

/-- StepRunsTheDecodedCommand, ResetStep: a pending command, a pending reset, and a word placed for the next
step. -/
theorem witness_port :
    ({ blank with port := [.command 0x3000000000, .reset] } : State).port = .command 0x3000000000 :: [.reset] ∧
    decode 0x3000000000 = .ok .next ∧ ({ blank with port := [.reset] } : State).port = .reset :: [] ∧
    decodeTableWord 40 0x3000000000 = some .next := by decide

/-- HiddenRegistersAreUnobservable: two states that differ in the registers no command shows while CFG = 0,
and a run of a command and a reset. -/
theorem witness_hidden :
    SameButHidden blank (block false false 0x41000000 0x40000000 0x3F000000) ∧
    acceptAll [.command 0x5000000003, .reset] blank = .next { blank with responses := [⟨.ok, 0x00000000⟩] } :=
  ⟨⟨rfl, rfl, rfl, rfl, rfl, by simp [blank, block]⟩, next_of (by decide +kernel)⟩

/-- TablesAreNeverWritten: a run of one step. -/
theorem witness_reaches : Reaches { blank with port := [.reset] } blank := .tail (.refl _) rfl

/-- OperationsRoundOnce, RoundingIsNearestEven: finite operands of both signs for the arithmetic, a tie, an
overflow and a zero sum. -/
theorem witness_arithmetic :
    F32.fin 0x3F800000 = true ∧ F32.fin 0xBF800000 = true ∧ F32.fin 0x7F7FFFFF = true ∧ F32.fin 0x80000000 = true ∧
    F32.add 0x7F7FFFFF 0x7F7FFFFF = 0x7F800000 ∧ F32.add 0x3F800000 0xBF800000 = 0x00000000 ∧
    F32.add 0x80000000 0x80000000 = 0x80000000 ∧ F32.add 0x4B800000 0x3F800000 = 0x4B800000 := by decide +kernel

/-- A decoded value is the rational it should be: 0x41280000 is 10.5 (95 T4). -/
theorem witness_val : F32.units 0x41280000 * 2 = 21 * F32.one ∧ F32.units 0xBF000000 * 2 = -(1 : Int) * F32.one := by
  decide +kernel

/-- SegmentLengthIsRounded, a length at a tie: half a sample rounds up (43 R118). -/
theorem witness_segment_length :
    (0 : ℚ) ≤ 1 / 2 * 1 ∧ (Duration.seconds (1 / 2)).sampleCount 1 = 1 ∧ (Duration.seconds 1).sampleCount 44100 = 44100 := by
  decide +kernel

end Sys2Proof.Tests
end

section
/-! The proofs of the statements of 00_scope: the step (R8), the valid configuration (R7), the number format
(R12) and its rounding (R13), for rationals and for reals. -/

namespace Sys2Proof.Machine

/-! ### One step (00_scope R8, 30_encoding R56, R60) -/

theorem step_of_port_cons {s : State} {e : PortEvent} {rest : List PortEvent} (h : s.port = e :: rest) :
    step s = accept e { s with port := rest } := by
  simp only [step, h]

theorem accept_command_of_decode {c : CommandWord} {i : Instr} (h : decode c = .ok i) (s : State) :
    accept (.command c) s = exec i s := by
  simp only [accept, runCommand, h]

theorem decodeTableWord_eq_some {nbits w : Nat} {i : Instr} :
    decodeTableWord nbits w = some i ↔ decode (tableWord nbits w) = .ok i := by
  rw [decodeTableWord, tableWord]
  cases decode (BitVec.ofNat 40 (w % 2 ^ nbits)) <;> simp

/-- Settles O9: the step accepts the oldest event, and a command word is accepted as what it decodes to. -/
theorem stepRunsTheDecodedCommand : Obligations.StepRunsTheDecodedCommand := by
  have run : ∀ (s : State) (c : CommandWord) (rest : List PortEvent) (i : Instr),
      s.port = .command c :: rest → decode c = .ok i → step s = exec i { s with port := rest } :=
    fun s c rest i hport hdec => (step_of_port_cons hport).trans (accept_command_of_decode hdec _)
  exact ⟨run, fun s nbits w i hdec =>
    run _ _ _ i (withFetchWord_port nbits w s) (decodeTableWord_eq_some.1 hdec)⟩

end Sys2Proof.Machine

namespace Sys2Proof.F32

/-! ### A valid configuration (00_scope R7) -/

/-- A table entry is a finite value in [-1, 1]. -/
theorem val_of_mem_table (hw : Config) {w : Word} (h : w ∈ hw.table) : fin w = true ∧ -1 ≤ val w ∧ val w ≤ 1 := by
  have hok : fin w = true ∧ magUnits w ≤ one := by simpa [Config.sampleOk] using hw.sampleOk_of_mem h
  exact ⟨hok.1, val_abs_le_one hok.2⟩

theorem val_of_units {w : Word} {n : ℤ} (h : units w = n * one) : val w = n := by
  rw [val_eq_units, h]; push_cast; exact mul_div_cancel_right₀ _ one_pos.ne'

theorem val_hz440 : val Config.hz440 = 440 := by
  have h : units Config.hz440 = 440 * one := by decide +kernel
  exact_mod_cast val_of_units h

theorem val_hz432 : val Config.hz432 = 432 := by
  have h : units Config.hz432 = 432 * one := by decide +kernel
  exact_mod_cast val_of_units h

/-- Settles O45: each part of the check a configuration carries, read as a value. -/
theorem configurationsAreValid : Obligations.ConfigurationsAreValid := by
  intro hw
  obtain ⟨h440, h432⟩ := hw.noteA
  refine ⟨hw.bounds.1, hw.bounds.2, rfl, fun w => val_of_mem_table hw, fun h p => ?_, ?_, ?_⟩
  · obtain ⟨hfin, hpos⟩ := Machine.lutRead_ok hw h p
    exact ⟨hfin, (isPos_iff _).1 hpos⟩
  · exact (congrArg val h440).trans val_hz440
  · exact (congrArg val h432).trans val_hz432

/-! ### The number format (00_scope R12) -/

theorem fin_iff_exponent (w : Word) : fin w = true ↔ exponent w ≠ 255 := by simp [fin]

theorem decoded_nan {w : Word} (he : exponent w = 255) (hf : fraction w ≠ 0) : decoded w = .nan := by
  simp [decoded, he, hf]

theorem decoded_infinity {w : Word} (he : exponent w = 255) (hf : fraction w = 0) :
    decoded w = .infinity (sign w) := by
  simp [decoded, he, hf]

/-- The sign bit as R12's factor `(-1)^s`. -/
theorem signFactor_eq_pow (w : Word) :
    (if sign w then -1 else 1 : ℚ) = (-1) ^ (w.toNat / 2 ^ 31) := by
  have hlt := w.isLt
  rw [sign_eq]
  by_cases h : 2 ^ 31 ≤ w.toNat
  · have hs : w.toNat / 2 ^ 31 = 1 := by omega
    simp only [h, hs, decide_true, if_true, pow_one]
  · have hs : w.toNat / 2 ^ 31 = 0 := by omega
    simp only [h, hs, decide_false, Bool.false_eq_true, if_false, pow_zero]

theorem sign_eq_decide_div (w : Word) : sign w = decide (w.toNat / 2 ^ 31 = 1) := by
  have hlt := w.isLt
  rw [sign_eq]; exact decide_eq_decide.2 (by omega)

theorem units_eq_val_mul (w : Word) : (units w : ℚ) = val w * 2 ^ 149 := by
  have hone : ((one : ℕ) : ℚ) = 2 ^ 149 := by rw [one]; push_cast; rfl
  rw [val_eq_units, ← hone, div_mul_cancel₀ _ one_pos.ne']

/-- Settles O48: the fields are the quotients of the word's number, and each line of R12 is a branch of
`decoded` or of `val`. -/
theorem unitsAreTheDecodedValue : Obligations.UnitsAreTheDecodedValue := by
  intro w s e m
  have he : exponent w = e := exponent_eq w
  have hm : fraction w = m := fraction_eq w
  have hs : (if sign w then -1 else 1 : ℚ) = (-1) ^ s := signFactor_eq_pow w
  refine ⟨fun h => ?_, fun h => ?_, fun h255 h0 => ?_, fun h255 h0 => ?_, ?_, fun h => ?_⟩
  · rw [decoded_of_fin ((fin_iff_exponent w).2 (by omega)), val, hs, if_neg (by omega), he, hm, mul_assoc]
  · rw [decoded_of_fin ((fin_iff_exponent w).2 (by omega)), val, hs, if_pos (by omega), hm, mul_assoc]
  · rw [decoded_infinity (he.trans h255) (hm.trans h0), sign_eq_decide_div]
  · exact decoded_nan (he.trans h255) (hm ▸ h0)
  · rw [fin_iff_exponent, he]
  · exact ⟨decoded_of_fin h, units_eq_val_mul w⟩

/-! ### Signs, codes and infinities -/

theorem withSign_zero (neg : Bool) : withSign neg 0 = if neg then 0x80000000 else 0x00000000 := by
  cases neg <;> rfl

/-- A zero product or quotient is -0 when the operands' signs differ (R13). -/
theorem withSign_bne_zero (p q : Bool) : withSign (p != q) 0 = if p = q then 0x00000000 else 0x80000000 := by
  by_cases h : p = q
  · rw [withSign_zero, if_pos h, bne_eq_false_iff_eq.2 h]; rfl
  · rw [withSign_zero, if_neg h, bne_iff_ne.2 h, if_pos rfl]

theorem val_eq_zero_iff {w : Word} : val w = 0 ↔ units w = 0 := by
  rw [val_eq_units, div_eq_zero_iff, or_iff_left one_pos.ne']; exact_mod_cast Iff.rfl

theorem magUnits_eq_zero {w : Word} (h : val w = 0) : magUnits w = 0 := by
  rw [← natAbs_units, val_eq_zero_iff.1 h]; rfl

/-- Two words of one sign and one magnitude are the same word. -/
theorem eq_of_sign_code {v w : Word} (hs : sign v = sign w) (hc : code v = code w) : v = w := by
  rw [eq_withSign v, eq_withSign w, hs, hc]

theorem eq_negZero_iff {w : Word} : w = 0x80000000 ↔ sign w = true ∧ units w = 0 := by
  constructor
  · rintro rfl; decide
  · rintro ⟨hs, hu⟩
    exact eq_of_sign_code hs (units_eq_zero_iff.1 hu)

/-- Bit 0 of a word is the parity of its magnitude bits. -/
theorem getLsbD_zero_eq_false {w : Word} : w.getLsbD 0 = false ↔ code w % 2 = 0 := by
  rw [BitVec.getLsbD, Nat.testBit_zero, code, decide_eq_false_iff_not]; omega

theorem decoded_eq_infinity {w : Word} {neg : Bool} :
    decoded w = .infinity neg ↔ sign w = neg ∧ code w = infMag := by
  have hlt := fraction_lt w
  rw [decoded, code_eq, infMag]
  split
  · split
    · rw [Decoded.infinity.injEq, iff_self_and]; omega
    · simp only [reduceCtorEq, false_iff]; omega
  · simp only [reduceCtorEq, false_iff]; omega

/-! ### R13's rounding of a rational -/

@[simp] theorem sign_rnd (x : ℚ) : sign (rnd x) = decide (x < 0) := by
  rw [rnd, sign_withSign_rndMag]; exact decide_eq_decide.2 Rat.num_neg

@[simp] theorem code_rnd (x : ℚ) : code (rnd x) = rndMag (one * x.num.natAbs) x.den :=
  code_withSign_rndMag _ _ _

/-- R13's threshold in units of 2^(-149). -/
theorem overflow_eq : (overflow : ℚ) = (2 ^ 128 - 2 ^ 103) * one := by
  rw [overflow, one]; norm_num

theorem overflow_le_iff (x : ℚ) :
    2 ^ 128 - 2 ^ 103 ≤ |x| ↔ overflow * x.den ≤ one * x.num.natAbs := by
  have hden : (0 : ℚ) < x.den := by exact_mod_cast x.den_pos
  have habs : |x| = (x.num.natAbs : ℚ) / x.den := by
    conv_lhs => rw [← Rat.num_div_den x, abs_div, abs_of_pos hden]
    rw [Nat.cast_natAbs, Int.cast_abs]
  have hcast : overflow * x.den ≤ one * x.num.natAbs ↔
      (overflow : ℚ) * x.den ≤ one * x.num.natAbs := by exact_mod_cast Iff.rfl
  rw [hcast, habs, le_div_iff₀ hden, overflow_eq, mul_right_comm, mul_comm (one : ℚ),
    mul_le_mul_iff_left₀ one_pos]

/-- At and above the threshold the result is the infinity of the sign of `x`. -/
theorem decoded_rnd_of_overflow {x : ℚ} (h : 2 ^ 128 - 2 ^ 103 ≤ |x|) :
    decoded (rnd x) = .infinity (decide (x < 0)) :=
  decoded_eq_infinity.2 ⟨sign_rnd x, (code_rnd x).trans (rndMag_eq_infMag x.den_pos ((overflow_le_iff x).1 h))⟩

theorem rnd_of_overflow {x : ℚ} (h : 2 ^ 128 - 2 ^ 103 ≤ |x|) :
    rnd x = if x < 0 then 0xFF800000 else 0x7F800000 := by
  obtain ⟨hs, hc⟩ := decoded_eq_infinity.1 (decoded_rnd_of_overflow h)
  rw [eq_withSign (rnd x), hs, hc]
  by_cases hx : x < 0
  · rw [if_pos hx, decide_eq_true hx]; rfl
  · rw [if_neg hx, decide_eq_false hx]; rfl

theorem code_rnd_lt {x : ℚ} (h : |x| < 2 ^ 128 - 2 ^ 103) :
    rndMag (one * x.num.natAbs) x.den < infMag :=
  rndMag_lt_infMag x.den_pos (not_le.1 fun hle => not_le.2 h ((overflow_le_iff x).2 hle))

/-- The distance from `x` to a word, over the common denominator `one * x.den`. -/
def distance (x : ℚ) (w : Word) : ℤ := |one * x.num - units w * x.den|

theorem abs_sub_val (x : ℚ) (w : Word) : |x - val w| = distance x w / (one * x.den) := by
  have hden : (0 : ℚ) < x.den := by exact_mod_cast x.den_pos
  have hpos : (0 : ℚ) < one * x.den := mul_pos one_pos hden
  have hdiff : x - val w = (one * x.num - units w * x.den) / (one * x.den) := by
    conv_lhs => rw [val_eq_units, ← Rat.num_div_den x]
    rw [div_sub_div _ _ hden.ne' one_pos.ne', mul_comm (x.den : ℚ) one]
    congr 1; ring
  rw [hdiff, abs_div, abs_of_pos hpos, distance]; push_cast; rfl

theorem abs_sub_val_le_iff (x : ℚ) (v w : Word) : |x - val v| ≤ |x - val w| ↔ distance x v ≤ distance x w := by
  have hpos : (0 : ℚ) < one * x.den := mul_pos one_pos (by exact_mod_cast x.den_pos)
  rw [abs_sub_val, abs_sub_val, div_le_div_iff_of_pos_right hpos]; exact_mod_cast Iff.rfl

theorem abs_sub_val_eq_iff (x : ℚ) (v w : Word) : |x - val v| = |x - val w| ↔ distance x v = distance x w := by
  rw [le_antisymm_iff, abs_sub_val_le_iff, abs_sub_val_le_iff, ← le_antisymm_iff]

/-- The distance between the magnitudes of `x` and of the magnitude bits `c`, over `one * x.den`. -/
def magDistance (x : ℚ) (c : Nat) : ℤ := |((one * x.num.natAbs : Nat) : ℤ) - unitsOfCode c * x.den|

/-- A word is at least as far from `x` as its magnitude is from that of `x`. -/
theorem magDistance_le (x : ℚ) (w : Word) : magDistance x (code w) ≤ distance x w := by
  have h := abs_abs_sub_abs_le (one * x.num) (units w * x.den)
  rw [abs_mul, abs_mul, abs_units, magUnits_eq, Nat.abs_cast, Nat.abs_cast] at h
  rw [magDistance, distance]; push_cast; exact h

theorem num_eq_sign_mul (x : ℚ) : x.num = (if x < 0 then -1 else 1) * (x.num.natAbs : ℤ) := by
  have h : x.num < 0 ↔ x < 0 := Rat.num_neg
  split <;> rename_i hx <;> rw [← h] at hx <;> omega

theorem units_eq_sign_mul (w : Word) : units w = (if sign w then -1 else 1) * (unitsOfCode (code w) : ℤ) := by
  rw [units, magUnits_eq]; split <;> ring

/-- A word of the sign of `x` is as far from `x` as its magnitude is from that of `x`. -/
theorem distance_of_sign {x : ℚ} {w : Word} (h : sign w = decide (x < 0)) :
    distance x w = magDistance x (code w) := by
  have hnum := num_eq_sign_mul x
  rw [distance, magDistance, units_eq_sign_mul, h, Nat.cast_mul]
  generalize x.num.natAbs = a at hnum ⊢
  rw [hnum]
  by_cases hx : x < 0
  · simp only [hx, decide_true, if_true]
    rw [← abs_neg]; congr 1; ring
  · simp only [hx, decide_false, Bool.false_eq_true, if_false, one_mul]

/-- A word of the other sign is as far from `x` as the two magnitudes together. -/
theorem distance_of_sign_ne {x : ℚ} {w : Word} (h : sign w ≠ decide (x < 0)) :
    distance x w = ((one * x.num.natAbs + unitsOfCode (code w) * x.den : Nat) : ℤ) := by
  have hs : sign w = !decide (x < 0) := Bool.eq_not.2 h
  have hnum := num_eq_sign_mul x
  rw [distance, units_eq_sign_mul, hs]
  generalize x.num.natAbs = a at hnum ⊢
  rw [hnum, ← Nat.abs_cast (one * a + unitsOfCode (code w) * x.den)]
  by_cases hx : x < 0
  · simp only [hx, decide_true, Bool.not_true, Bool.false_eq_true, if_true, if_false]
    rw [← abs_neg]; congr 1; push_cast; ring
  · simp only [hx, decide_false, Bool.not_false, if_true, if_false]
    congr 1; push_cast; ring

/-- A word of the other sign is no farther than its magnitude only when one of the two magnitudes is 0. -/
theorem eq_zero_of_distance_of_sign_ne {x : ℚ} {w : Word} (h : sign w ≠ decide (x < 0))
    (heq : distance x w = magDistance x (code w)) : x = 0 ∨ code w = 0 := by
  rw [distance_of_sign_ne h, magDistance, ← Nat.cast_mul (unitsOfCode _)] at heq
  have hzero : one * x.num.natAbs = 0 ∨ unitsOfCode (code w) * x.den = 0 := by
    generalize one * x.num.natAbs = a at *
    generalize unitsOfCode (code w) * x.den = b at *
    rcases abs_cases ((a : ℤ) - b) with ⟨h1, -⟩ | ⟨h1, -⟩ <;> rw [h1] at heq <;> omega
  rcases hzero with ha | hb
  · left
    have := one_pos_nat
    exact Rat.num_eq_zero.1 (Int.natAbs_eq_zero.1 ((Nat.mul_eq_zero.1 ha).resolve_left (by omega)))
  · right
    have := (Nat.mul_eq_zero.1 hb).resolve_right x.den_nz
    exact unitsOfCode_inj.1 (by rw [this, unitsOfCode_zero])

/-- No finite word is nearer to `x` than `rnd x`, and an equally near one of another value leaves `rnd x`
the even one. -/
theorem rnd_nearest {x : ℚ} (h : |x| < 2 ^ 128 - 2 ^ 103) (w : Word) :
    |x - val (rnd x)| ≤ |x - val w| ∧
      (val w ≠ val (rnd x) → |x - val w| = |x - val (rnd x)| → (rnd x).getLsbD 0 = false) := by
  obtain ⟨hle, htie⟩ := rndMag_nearest x.den_pos (code_rnd_lt h) (code w)
  rw [← code_rnd] at hle htie
  have hr : distance x (rnd x) = magDistance x (code (rnd x)) := distance_of_sign (sign_rnd x)
  have hw := magDistance_le x w
  rw [abs_sub_val_le_iff, abs_sub_val_eq_iff, getLsbD_zero_eq_false, hr]
  refine ⟨hle.trans hw, fun hval heq => ?_⟩
  have hmag : magDistance x (code (rnd x)) = magDistance x (code w) := le_antisymm hle (heq ▸ hw)
  by_cases hc : code w = code (rnd x)
  · have hs : sign w ≠ decide (x < 0) := fun hs => hval (by rw [eq_of_sign_code (hs.trans (sign_rnd x).symm) hc])
    rcases eq_zero_of_distance_of_sign_ne hs (heq.trans hmag) with rfl | h0
    · simp
    · rw [← hc, h0]
  · exact htie hc hmag

theorem fin_rnd {x : ℚ} (h : |x| < 2 ^ 128 - 2 ^ 103) : fin (rnd x) = true :=
  (fin_iff_code _).2 ((code_rnd x).symm ▸ code_rnd_lt h)

/-! ### The sign of a zero result (00_scope R13) -/

theorem mul_of_val_zero {a b : Word} (h : val a * val b = 0) :
    mul a b = if sign a = sign b then 0x00000000 else 0x80000000 := by
  have hz : magUnits a * magUnits b = 0 := by
    rcases mul_eq_zero.1 h with ha | hb
    · rw [magUnits_eq_zero ha, Nat.zero_mul]
    · rw [magUnits_eq_zero hb, Nat.mul_zero]
  rw [mul, hz, rndMag_zero, withSign_bne_zero]

theorem div_of_val_zero {a : Word} (b : Word) (h : val a = 0) :
    div a b = if sign a = sign b then 0x00000000 else 0x80000000 := by
  rw [div, magUnits_eq_zero h, Nat.mul_zero, rndMag_zero, withSign_bne_zero]

theorem mulNat_of_val_zero {a : Word} {n : Nat} (hn : 0 < n) (h : val a * n = 0) :
    mulNat a n = if sign a then 0x80000000 else 0x00000000 := by
  have ha : val a = 0 := (mul_eq_zero.1 h).resolve_right (Nat.cast_ne_zero.2 hn.ne')
  rw [mulNat, magUnits_eq_zero ha, Nat.zero_mul, rndMag_zero, withSign_zero]

/-- Two words with the sign bit set have a zero sum only as -0 and -0. -/
theorem negZero_of_add_eq_zero {a b : Word} (h : units a + units b = 0) :
    sign a = true ∧ sign b = true ↔ a = 0x80000000 ∧ b = 0x80000000 := by
  rw [eq_negZero_iff, eq_negZero_iff]
  constructor
  · rintro ⟨hs, ht⟩
    rw [units, units, hs, ht, if_pos rfl, if_pos rfl] at h
    simp only [units, hs, ht, if_true, true_and]; omega
  · rintro ⟨⟨hs, -⟩, ht, -⟩
    exact ⟨hs, ht⟩

theorem add_of_val_zero {a b : Word} (h : val a + val b = 0) :
    add a b = if a = 0x80000000 ∧ b = 0x80000000 then 0x80000000 else 0x00000000 := by
  have hz : units a + units b = 0 := by
    rw [val_eq_units, val_eq_units, ← add_div, div_eq_zero_iff, or_iff_left one_pos.ne'] at h
    exact_mod_cast h
  have hzero : rndUnits 0 = 0x00000000 := by decide
  simp only [add, hz, true_and, negZero_of_add_eq_zero hz, hzero]

theorem rnd_zero : rnd 0 = 0x00000000 := by decide

/-- Settles O49: the sign and overflow of `rnd` are those of its sign and magnitude bits, the nearest word is
`rnd_nearest`, and each zero result has magnitude bits 0. -/
theorem roundingIsNearestEven : Obligations.RoundingIsNearestEven := by
  refine ⟨fun x => ⟨?_, fun _ => sign_rnd x, rnd_of_overflow, fun h => ⟨fin_rnd h, fun w _ => rnd_nearest h w⟩⟩,
    fun a b _ _ => ⟨mul_of_val_zero, fun h _ => div_of_val_zero b h, add_of_val_zero, fun n => mulNat_of_val_zero⟩⟩
  rintro rfl
  exact rnd_zero

/-! ### R13's rounding of a real

Halfway between two words lies a multiple of 2^(-150), so a real can be replaced by any rational with the same
multiples of 2^(-150) at, below and above it. -/

/-- `x` and `y` compare alike with every multiple of 2^(-150). -/
def SameHalves (x y : ℝ) : Prop :=
  ∀ k : ℤ, ((k : ℝ) ≤ 2 * one * x ↔ (k : ℝ) ≤ 2 * one * y) ∧ (2 * one * x ≤ (k : ℝ) ↔ 2 * one * y ≤ (k : ℝ))

theorem one_pos_real : (0 : ℝ) < one := by exact_mod_cast one_pos_nat

/-- How the integers compare with a real that is strictly between two neighbouring ones. -/
theorem int_compare_of_between {y : ℝ} {n : ℤ} (hlt : n < y) (hgt : y < n + 1) (k : ℤ) :
    ((k : ℝ) ≤ y ↔ k ≤ n) ∧ (y ≤ (k : ℝ) ↔ n < k) := by
  have hfloor : ⌊y⌋ = n := Int.floor_eq_iff.2 ⟨hlt.le, hgt⟩
  have hceil : ⌈y⌉ = n + 1 := Int.ceil_eq_iff.2 ⟨by push_cast; linarith, by push_cast; exact hgt.le⟩
  rw [← Int.le_floor, ← Int.ceil_le, hfloor, hceil, Int.add_one_le_iff]
  exact ⟨Iff.rfl, Iff.rfl⟩

/-- Every real compares like a rational: itself, when it is a multiple of 2^(-150), or else the middle of the
two multiples around it. -/
theorem exists_rat_sameHalves (x : ℝ) : ∃ q : ℚ, SameHalves x q := by
  have htwo : (2 * one : ℝ) ≠ 0 := by have := one_pos_real; positivity
  obtain ⟨n, hle, hlt⟩ : ∃ n : ℤ, (n : ℝ) ≤ 2 * one * x ∧ 2 * one * x < n + 1 :=
    ⟨_, Int.floor_le _, Int.lt_floor_add_one _⟩
  rcases eq_or_ne (2 * one * x) n with heq | hne
  · refine ⟨n / (2 * one), fun k => ?_⟩
    have hq : 2 * one * ((n / (2 * one) : ℚ) : ℝ) = n := by push_cast; exact mul_div_cancel₀ _ htwo
    rw [hq, heq]; exact ⟨Iff.rfl, Iff.rfl⟩
  · refine ⟨(n + 1 / 2) / (2 * one), fun k => ?_⟩
    have hq : 2 * one * (((n + 1 / 2) / (2 * one) : ℚ) : ℝ) = n + 1 / 2 := by
      push_cast; exact mul_div_cancel₀ _ htwo
    obtain ⟨hx1, hx2⟩ := int_compare_of_between (lt_of_le_of_ne hle hne.symm) hlt k
    obtain ⟨hm1, hm2⟩ := int_compare_of_between (y := n + 1 / 2) (n := n) (by linarith) (by linarith) k
    rw [hq, hx1, hx2, hm1, hm2]; exact ⟨Iff.rfl, Iff.rfl⟩

theorem SameHalves.neg_iff {x y : ℝ} (h : SameHalves x y) : x < 0 ↔ y < 0 := by
  have halves : ∀ z : ℝ, z < 0 ↔ ¬ ((0 : ℤ) : ℝ) ≤ 2 * one * z := fun z => by
    have hone := one_pos_real
    rw [Int.cast_zero, mul_nonneg_iff_of_pos_left (by positivity), not_le]
  rw [halves x, halves y, (h 0).1]

theorem SameHalves.overflow_iff {x y : ℝ} (h : SameHalves x y) :
    2 ^ 128 - 2 ^ 103 ≤ |x| ↔ 2 ^ 128 - 2 ^ 103 ≤ |y| := by
  have halves : ∀ z : ℝ, 2 ^ 128 - 2 ^ 103 ≤ |z| ↔
      ((2 * overflow : ℤ) : ℝ) ≤ 2 * one * z ∨ 2 * one * z ≤ ((-(2 * overflow) : ℤ) : ℝ) := fun z => by
    have hone := one_pos_real
    have hover : (overflow : ℝ) = one * (2 ^ 128 - 2 ^ 103) := by
      rw [mul_comm]; exact_mod_cast overflow_eq
    have htwo : (0 : ℝ) < 2 * one := by positivity
    push_cast
    rw [hover, ← mul_assoc, mul_le_mul_iff_right₀ htwo, ← mul_neg, mul_le_mul_iff_right₀ htwo, le_abs,
      le_neg (b := z)]
  rw [halves x, halves y, (h _).1, (h _).2]

/-- Which of two words is nearer to `x` is decided at their midpoint, `units v + units w` multiples of
2^(-150). -/
theorem abs_sub_val_le_iff_midpoint (x : ℝ) (v w : Word) : |x - val w| ≤ |x - val v| ↔
    ((units v - units w : ℤ) : ℝ) * (2 * one * x - ((units v + units w : ℤ) : ℝ)) ≤ 0 := by
  have hone := one_pos_real
  have hdiff : (x - val w) ^ 2 - (x - val v) ^ 2 =
      ((units v - units w : ℤ) : ℝ) * (2 * one * x - ((units v + units w : ℤ) : ℝ)) / one ^ 2 := by
    rw [val_eq_units, val_eq_units]; push_cast; field_simp; ring
  rw [← sq_le_sq, ← sub_nonpos, hdiff, div_le_iff₀ (by positivity), zero_mul]

theorem SameHalves.nearer_iff {x y : ℝ} (h : SameHalves x y) (v w : Word) :
    |x - val w| ≤ |x - val v| ↔ |y - val w| ≤ |y - val v| := by
  simp only [abs_sub_val_le_iff_midpoint, mul_nonpos_iff, sub_nonpos, sub_nonneg, (h _).1, (h _).2]

/-- Reals that compare alike with the multiples of 2^(-150) round alike. -/
theorem SameHalves.rounds_iff {x y : ℝ} (h : SameHalves x y) (w : Word) : Rounds x w ↔ Rounds y w := by
  simp only [Rounds, h.neg_iff, h.overflow_iff, ← not_le, le_antisymm_iff, h.nearer_iff]

/-- The model's rounding of a rational is R13's. -/
theorem rounds_rnd (q : ℚ) : Rounds (q : ℝ) (rnd q) := by
  have hneg : (q : ℝ) < 0 ↔ q < 0 := by exact_mod_cast Iff.rfl
  refine ⟨by rw [hneg, sign_rnd, decide_eq_true_eq], fun h => ?_, fun h => ?_⟩
  · rw [sign_rnd]
    exact decoded_rnd_of_overflow (by exact_mod_cast h)
  · have h : |q| < 2 ^ 128 - 2 ^ 103 := by exact_mod_cast h
    refine ⟨fin_rnd h, fun v _ => ?_⟩
    obtain ⟨hle, htie⟩ := rnd_nearest h v
    exact ⟨by exact_mod_cast hle, fun hne heq => htie hne (by exact_mod_cast heq)⟩

/-! ### R13 describes one word -/

theorem code_eq_of_val_eq {v w : Word} (h : val v = val w) : code v = code w := by
  have hu : units v = units w := by
    rw [val_eq_units, val_eq_units, div_left_inj' one_pos.ne'] at h; exact_mod_cast h
  rw [← unitsOfCode_inj, ← magUnits_eq, ← magUnits_eq, ← natAbs_units, ← natAbs_units, hu]

/-- Among the words of one sign, magnitude bits in between give a value in between. -/
theorem val_between {u v w : Word} (hu : sign u = sign v) (hw : sign w = sign v) (hvu : code v < code u)
    (huw : code u < code w) : (val v < val u ∧ val u < val w) ∨ (val w < val u ∧ val u < val v) := by
  have h1 : (unitsOfCode (code v) : ℚ) < unitsOfCode (code u) := by exact_mod_cast unitsOfCode_strictMono hvu
  have h2 : (unitsOfCode (code u) : ℚ) < unitsOfCode (code w) := by exact_mod_cast unitsOfCode_strictMono huw
  simp only [val_eq_units, units_eq_sign_mul, hu, hw, div_lt_div_iff_of_pos_right one_pos]
  cases sign v
  · left; simp [h1, h2]
  · right; simp [h1, h2]

/-- What lies strictly between two reals at the same distance from `x` is nearer to it. -/
theorem abs_sub_lt_of_between {x a b c : ℝ} (h : |x - a| = |x - b|) (hc : (a < c ∧ c < b) ∨ (b < c ∧ c < a)) :
    |x - c| < |x - a| := by
  rcases abs_eq_abs.1 h with heq | heq <;> rcases hc with ⟨h1, h2⟩ | ⟨h1, h2⟩
  · linarith
  · linarith
  · exact (abs_lt.2 ⟨by linarith, by linarith⟩).trans_le (le_abs_self (x - a))
  · exact (abs_lt.2 ⟨by linarith, by linarith⟩).trans_le (neg_le_abs (x - a))

/-- Two words that R13 allows for a finite result cannot be apart: the words strictly between them would be
nearer, and neighbours have opposite parities. -/
theorem not_code_lt_of_rounds {x : ℝ} {v w : Word} (h : |x| < 2 ^ 128 - 2 ^ 103) (hv : Rounds x v)
    (hw : Rounds x w) : ¬ code v < code w := by
  obtain ⟨hsv, -, hfinite⟩ := hv
  obtain ⟨hfv, hnv⟩ := hfinite h
  obtain ⟨hsw, -, hfinite⟩ := hw
  obtain ⟨hfw, hnw⟩ := hfinite h
  intro hlt
  have hs : sign w = sign v := Bool.eq_iff_iff.2 (hsw.trans hsv.symm)
  have hcw : code w < infMag := (fin_iff_code w).1 hfw
  have heq : |x - val v| = |x - val w| := le_antisymm (hnv w hfw).1 (hnw v hfv).1
  have hne : val v ≠ val w := fun h => hlt.ne (code_eq_of_val_eq h)
  have hev := getLsbD_zero_eq_false.1 ((hnv w hfw).2 hne.symm heq.symm)
  have hew := getLsbD_zero_eq_false.1 ((hnw v hfv).2 hne heq)
  have hm : code v + 1 < 2 ^ 31 := by have := code_lt w; omega
  have hbetween := val_between (sign_withSign (sign v) hm) hs
    (by rw [code_withSign _ hm]; omega) (by rw [code_withSign _ hm]; omega)
  have hfin : fin (withSign (sign v) (code v + 1)) = true := (fin_withSign _ hm).2 (by omega)
  exact absurd (hnv _ hfin).1 (not_le.2 (abs_sub_lt_of_between heq (by exact_mod_cast hbetween)))

/-- R13 allows one word at most. -/
theorem Rounds.unique {x : ℝ} {v w : Word} (hv : Rounds x v) (hw : Rounds x w) : v = w := by
  have ⟨hsv, hinfv, _⟩ := hv
  have ⟨hsw, hinfw, _⟩ := hw
  refine eq_of_sign_code (Bool.eq_iff_iff.2 (hsv.trans hsw.symm)) ?_
  rcases lt_or_ge |x| (2 ^ 128 - 2 ^ 103) with h | h
  · exact le_antisymm (not_lt.1 (not_code_lt_of_rounds h hw hv)) (not_lt.1 (not_code_lt_of_rounds h hv hw))
  · rw [(decoded_eq_infinity.1 (hinfv h)).2, (decoded_eq_infinity.1 (hinfw h)).2]

/-- Settles O58: a real rounds like a rational with the same halves, and R13 allows one word at most. -/
theorem realRoundingIsUnique : Obligations.RealRoundingIsUnique := by
  refine ⟨fun x => ?_, rounds_rnd⟩
  obtain ⟨q, hq⟩ := exists_rat_sameHalves x
  have hw : Rounds x (rnd q) := (hq.rounds_iff _).2 (rounds_rnd q)
  refine ⟨rnd q, fun v => ⟨fun hv => hv.unique hw, ?_⟩⟩
  rintro rfl
  exact hw

end Sys2Proof.F32
end

section
/-! The proofs of the statements of 10_state: what a command can do to the five items of state, the flags
(R19, R20), the registers (R16, R17, R18), the invariants (R21), reset (R30) and the hidden registers (R31). -/

namespace Sys2Proof.Machine

/-! ### What a command word can do

`Effect` names the six shapes of a command's outcome; each claim about all commands below is one case split
over them. -/

/-- What a word that decodes to `d` can make of the state `s`. Only the first four shapes touch the
oscillator; no INIT ends in the last two. -/
inductive Effect (s : State) : Except DecodeError Instr → State → Prop where
  /-- A successful INIT (41_oscillator R76). -/
  | constructs {w : Word} (hw : sampleRateOk w = true) :
      Effect s (.ok (.init w)) (respond .ok 0 (construct w s))
  /-- A failed INIT (41_oscillator R77). -/
  | initFails {w : Word} (hw : sampleRateOk w = false) :
      Effect s (.ok (.init w)) (raiseArgument .badSampleRate { s with cfg := false })
  /-- A successful SETF (41_oscillator R78). -/
  | setsIncrement {w q : Word} (hf : frequencyOk w = true) (hd : divisorOk s.sr = true)
      (hq : increment s.hw.N w s.sr = some q) :
      Effect s (.ok (.setf w)) (respond .ok 0 { s with inc := q })
  /-- A successful NEXT (41_oscillator R85). -/
  | advances {out : Word} (hrun : execNext s =
      .next (respond .ok out { s with phase := advance s.hw.N s.phase s.inc })) :
      Effect s (.ok .next) (respond .ok out { s with phase := advance s.hw.N s.phase s.inc })
  /-- A response without error that leaves the block's state: RESOLVE, RD, RDTAB. -/
  | answers {d : Except DecodeError Instr} {st : Status} {data : Word} (hd : ∀ w, d ≠ .ok (.init w))
      (hst : st.setsErr = false) : Effect s d (respond st data s)
  /-- An error response that sets ERR alone (60_exceptions R133). -/
  | raises {d : Except DecodeError Instr} {st : Status} {data : Word} (hd : ∀ w, d ≠ .ok (.init w))
      (hst : st.setsErr = true) : Effect s d (raise st data s)

/-- All that a command can do. -/
theorem exec_effect {i : Instr} {s t : State} (h : exec i s = .next t) : Effect s (.ok i) t := by
  cases i with
  | init w =>
    obtain ⟨hw, rfl⟩ | ⟨hw, rfl⟩ := execInit_cases h
    · exact .constructs hw
    · exact .initFails hw
  | setf w =>
    obtain ⟨-, rfl⟩ | ⟨-, -, rfl⟩ | ⟨-, -, -, -, rfl⟩ | ⟨-, hf, hd, q, hq, rfl⟩ := execSetf_cases h
    · exact .raises nofun rfl
    · exact .raises nofun rfl
    · exact .raises nofun rfl
    · exact .setsIncrement hf hd hq
  | next =>
    obtain ⟨-, rfl⟩ | ⟨-, -, -, out, -, rfl⟩ := execNext_cases h
    · exact .raises nofun rfl
    · exact .advances h
  | resolve std c1 c0 =>
    obtain ⟨-, rfl⟩ | ⟨_, -, -, rfl⟩ | ⟨_, _, -, -, rfl⟩ := execResolve_cases h
    · exact .raises nofun rfl
    · exact .answers nofun rfl
    · exact .answers nofun rfl
  | rd idx =>
    obtain ⟨-, rfl⟩ | ⟨_, -, -, -, rfl⟩ | ⟨_, -, -, rfl⟩ := execRd_cases h
    · exact .raises nofun rfl
    · exact .raises nofun rfl
    · exact .answers nofun rfl
  | rdtab tidx =>
    obtain ⟨-, rfl⟩ | ⟨_, -, rfl⟩ := execRdtab_cases h
    · exact .raises nofun rfl
    · exact .answers nofun rfl

/-- All that a command word can do: one that selects no command raises Illegal (30_encoding R53). -/
theorem runCommand_effect {c : CommandWord} {s t : State} (h : runCommand c s = .next t) :
    Effect s (decode c) t := by
  obtain ⟨i, hd, hi⟩ | ⟨e, hd, rfl⟩ := runCommand_cases h <;> rw [hd]
  · exact exec_effect hi
  · exact .raises nofun rfl

/-! ### The invariants of R21 -/

theorem resetBlock_inv (s : State) : (resetBlock s).Inv :=
  inv_of_zero rfl rfl (show F32.fin 0 = true by decide) nofun

/-- Settles O42: reset leaves zero registers and CFG = 0. -/
theorem resetMeetsTheInvariant : Obligations.ResetMeetsTheInvariant :=
  resetBlock_inv State.reset

/-- Every effect of a command keeps R21 (41_oscillator R95). -/
theorem Effect.inv {s t : State} {d : Except DecodeError Instr} (he : Effect s d t) (h : s.Inv) : t.Inv := by
  cases he with
  | constructs hw =>
    obtain ⟨hfin, hpos⟩ := sampleRateOk_iff.1 hw
    exact inv_of_zero rfl rfl hfin fun _ => hpos
  | initFails => exact ⟨h.finite, nofun, h.increment, h.phase⟩
  | setsIncrement hf hd hq =>
    have hw := sign_of_nonneg (frequencyOk_iff.1 hf).2
    obtain ⟨hfin, hinc⟩ := increment_spec hw (sign_of_pos (divisorOk_iff.1 hd).2) hq
    exact ⟨⟨h.finite.1, h.finite.2.1, hfin⟩, h.rate, hinc, h.phase⟩
  | advances hrun =>
    obtain ⟨t, ht, hinv, -⟩ := execNext_keeps h
    exact Host.Outcome.next.inj (ht.symm.trans hrun) ▸ hinv
  | answers => exact h.congr rfl rfl rfl rfl rfl
  | raises => exact h.congr rfl rfl rfl rfl rfl

/-- Settles O43: a step is idle, a command, each effect of which keeps R21, or a reset. -/
theorem stepKeepsTheInvariant : Obligations.StepKeepsTheInvariant := by
  intro s t h hstep
  obtain ⟨-, rfl⟩ | ⟨c, rest, -, hrun⟩ | ⟨rest, -, rfl⟩ := step_cases hstep
  · exact h
  · exact (runCommand_effect hrun).inv (h.congr rfl rfl rfl rfl rfl)
  · exact resetBlock_inv _

/-! ### CFG (R19) -/

theorem statusWord_cfg (cfg err : Bool) : (statusWord cfg err).getLsbD 0 = cfg := by
  cases cfg <;> cases err <;> rfl

theorem statusWord_err (cfg err : Bool) : (statusWord cfg err).getLsbD 1 = err := by
  cases cfg <;> cases err <;> rfl

theorem exec_setf_of_unconfigured (w : Word) {s : State} (hc : s.cfg = false) :
    exec (.setf w) s = .next (raiseNotConfigured s) := by
  simp [exec, execSetf, hc]

theorem exec_next_of_unconfigured {s : State} (hc : s.cfg = false) :
    exec .next s = .next (raiseNotConfigured s) := by
  simp [exec, execNext, hc]

theorem exec_rd_of_unconfigured {idx : BitVec 4} {r : ReadReg} {s : State} (hr : readRegOf idx = some r)
    (hn : r.needsOscillator = true) (hc : s.cfg = false) : exec (.rd idx) s = .next (raiseNotConfigured s) := by
  simp [exec, execRd, hr, hn, hc]

theorem Effect.cfg_set {s t : State} {d : Except DecodeError Instr} (he : Effect s d t) (hs : s.cfg = false)
    (ht : t.cfg = true) : ∃ w, d = .ok (.init w) ∧ t.responses = s.responses ++ [⟨.ok, 0⟩] := by
  cases he with
  | constructs => exact ⟨_, rfl, rfl⟩
  | initFails => cases ht
  | setsIncrement | advances | answers | raises => exact absurd (hs.symm.trans ht) nofun

theorem Effect.cfg_cleared {s t : State} {d : Except DecodeError Instr} (he : Effect s d t) (hs : s.cfg = true)
    (ht : t.cfg = false) :
    ∃ w, d = .ok (.init w) ∧ t.responses = s.responses ++ [⟨.invalidArgument, 1⟩] := by
  cases he with
  | constructs => cases ht
  | initFails => exact ⟨_, rfl, rfl⟩
  | setsIncrement | advances | answers | raises => exact absurd (hs.symm.trans ht) nofun

/-- The status of INIT's response says what it made of CFG (41_oscillator R76, R77). -/
theorem Effect.cfg_of_init {s t : State} {w : Word} (he : Effect s (.ok (.init w)) t) (data : Word) :
    (t.responses = s.responses ++ [⟨.ok, data⟩] → t.cfg = true) ∧
    (t.responses = s.responses ++ [⟨.invalidArgument, data⟩] → t.cfg = false) := by
  cases he with
  | constructs => simp
  | initFails => simp
  | answers hd => exact absurd rfl (hd w)
  | raises hd => exact absurd rfl (hd w)

/-- Settles O15: of the effects only INIT's two change CFG, and the commands that need an oscillator check it
before all else. -/
theorem cfgFlagRule : Obligations.CfgFlagRule := by
  refine ⟨fun c s t h => ?_, ?_, fun s => statusWord_cfg s.cfg s.err, ?_⟩
  · have he := runCommand_effect h
    exact ⟨he.cfg_set, he.cfg_cleared, fun w data hd => (hd ▸ he).cfg_of_init data⟩
  · rintro s t h
    exact Host.Outcome.next.inj h ▸ resetBlock_cfg s
  · rintro i s hc (⟨w, rfl⟩ | rfl | rfl | rfl | rfl | rfl)
    · exact exec_setf_of_unconfigured w hc
    · exact exec_next_of_unconfigured hc
    · exact exec_rd_of_unconfigured (r := .sampleRate) rfl rfl hc
    · exact exec_rd_of_unconfigured (r := .remaining) rfl rfl hc
    · exact exec_rd_of_unconfigured (r := .phase) rfl rfl hc
    · exact exec_rd_of_unconfigured (r := .increment) rfl rfl hc

/-! ### Frames and registers (R16, R17, R18) -/

/-- Settles O35: each effect of a command is the update of its own items that the frame names, and none
writes the configuration. -/
theorem commandFrames : Obligations.CommandFrames := by
  intro i s t h
  obtain ⟨-, -, -, hhw, -⟩ := exec_answers h
  refine ⟨?_, fun a => by rw [hhw], fun h p => by rw [hhw]⟩
  cases i <;> cases exec_effect h <;> rfl

theorem Effect.sr_written {s t : State} {d : Except DecodeError Instr} (he : Effect s d t) (h : t.sr ≠ s.sr) :
    d = .ok (.init t.sr) ∧ ∃ data, lastResponse t = some ⟨.ok, data⟩ := by
  cases he with
  | constructs => exact ⟨rfl, 0, lastResponse_respond ..⟩
  | initFails | setsIncrement | advances | answers | raises => exact absurd rfl h

theorem Effect.phase_written {s t : State} {d : Except DecodeError Instr} (he : Effect s d t)
    (h : t.phase ≠ s.phase) :
    (d = .ok .next ∨ (∃ w, d = .ok (.init w)) ∧ t.phase = 0x00000000) ∧
      ∃ data, lastResponse t = some ⟨.ok, data⟩ := by
  cases he with
  | constructs => exact ⟨.inr ⟨⟨_, rfl⟩, rfl⟩, 0, lastResponse_respond ..⟩
  | advances => exact ⟨.inl rfl, _, lastResponse_respond ..⟩
  | initFails | setsIncrement | answers | raises => exact absurd rfl h

theorem Effect.inc_written {s t : State} {d : Except DecodeError Instr} (he : Effect s d t) (h : t.inc ≠ s.inc) :
    ((∃ w, d = .ok (.setf w)) ∨ (∃ w, d = .ok (.init w)) ∧ t.inc = 0x00000000) ∧
      ∃ data, lastResponse t = some ⟨.ok, data⟩ := by
  cases he with
  | constructs => exact ⟨.inr ⟨⟨_, rfl⟩, rfl⟩, 0, lastResponse_respond ..⟩
  | setsIncrement => exact ⟨.inl ⟨_, rfl⟩, 0, lastResponse_respond ..⟩
  | initFails | advances | answers | raises => exact absurd rfl h

/-- Settles O36: the effects that write a register are those of its successful commands. -/
theorem registersWrittenOnlyBySuccess : Obligations.RegistersWrittenOnlyBySuccess := by
  intro c s t h
  have he := runCommand_effect h
  exact ⟨he.sr_written, he.phase_written, he.inc_written⟩

/-! ### Runs from two related states

ERR (R20) and the hidden registers (R31) each need that a command run from two states that differ in these
goes on alike from both. What makes it so is the same for both, and is proved once. -/

/-- When `o` goes on, so does `o'`, to a state related by `R`. -/
def Simulates (R : State → State → Prop) (o o' : Result) : Prop :=
  ∀ t, o = .next t → ∃ t', o' = .next t' ∧ R t t'

theorem Simulates.next {R : State → State → Prop} {t t' : State} (h : R t t') :
    Simulates R (.next t) (.next t') := by
  rintro _ ⟨⟩
  exact ⟨t', rfl, h⟩

theorem Simulates.of_fault {R : State → State → Prop} {r : Fault} {o' : Result} :
    Simulates R (.fault r) o' := nofun

theorem Simulates.andThen {R Q : State → State → Prop} {o o' : Result} {f : State → Result}
    (ho : Simulates R o o') (hf : ∀ t t', R t t' → Simulates Q (f t) (f t')) :
    Simulates Q (andThen o f) (andThen o' f) := by
  intro u hu
  obtain ⟨t, rfl, hu⟩ := andThen_eq_next.1 hu
  obtain ⟨t', rfl, htt⟩ := ho t rfl
  exact hf t t' htt u hu

/-- Related states agree in what the commands but RD STATUS read, and every update a command makes keeps
the relation. -/
structure Congruence (R : State → State → Prop) : Prop where
  hw {s s' : State} : R s s' → s.hw = s'.hw
  cfg {s s' : State} : R s s' → s.cfg = s'.cfg
  shown {s s' : State} : R s s' → s.cfg = true → s.sr = s'.sr ∧ s.phase = s'.phase ∧ s.inc = s'.inc
  respond {s s' : State} (h : R s s') (st : Status) (data : Word) : R (respond st data s) (respond st data s')
  raise {s s' : State} (h : R s s') (st : Status) (data : Word) : R (raise st data s) (raise st data s')
  construct {s s' : State} (h : R s s') (w : Word) : R (construct w s) (construct w s')
  clearCfg {s s' : State} (h : R s s') : R { s with cfg := false } { s' with cfg := false }
  setInc {s s' : State} (h : R s s') (w : Word) : R { s with inc := w } { s' with inc := w }
  setPhase {s s' : State} (h : R s s') (w : Word) : R { s with phase := w } { s' with phase := w }

theorem readRegOf_eq_status {idx : BitVec 4} : readRegOf idx = some .status → idx = 3 := by
  revert idx; decide

section
variable {R : State → State → Prop} (hR : Congruence R) {s s' : State} (h : R s s')
include hR h

theorem Congruence.readReg {r : ReadReg} (hn : r.needsOscillator = true → s.cfg = true)
    (herr : r = .status → s.err = s'.err) : readReg r s = readReg r s' := by
  cases r with
  | channels | remaining => rfl
  | sampleRate => exact (hR.shown h (hn rfl)).1
  | phase => exact (hR.shown h (hn rfl)).2.1
  | increment => exact (hR.shown h (hn rfl)).2.2
  | status => simp only [Machine.readReg, hR.cfg h, herr rfl]
  | tableLen => simp only [Machine.readReg, hR.hw h]

/-- A command takes the same branch from both states; RD STATUS shows ERR, so there ERR must agree too. -/
theorem Congruence.exec {i : Instr} (herr : i = .rd 3 → s.err = s'.err) :
    Simulates R (exec i s) (exec i s') := by
  cases i with
  | init w =>
    simp only [Machine.exec, execInit]
    split
    · exact .next (hR.respond (hR.construct h w) ..)
    · exact .next (hR.raise (hR.clearCfg h) ..)
  | setf w =>
    cases hc : s.cfg with
    | false =>
      rw [exec_setf_of_unconfigured w hc, exec_setf_of_unconfigured w ((hR.cfg h).symm.trans hc)]
      exact .next (hR.raise h ..)
    | true =>
      obtain ⟨hsr, -, -⟩ := hR.shown h hc
      simp only [Machine.exec, execSetf, ← hR.cfg h, ← hR.hw h, ← hsr, hc, Bool.not_true,
        Bool.false_eq_true, if_false]
      split
      · exact .next (hR.raise h ..)
      split
      · exact .of_fault
      split
      · exact .next (hR.raise h ..)
      next q _ =>
        have hset := hR.respond (hR.setInc h q) .ok 0
        simp only [← hR.cfg h, ← hR.hw h, ← hsr, hc] at hset
        exact .next hset
  | next =>
    cases hc : s.cfg with
    | false =>
      rw [exec_next_of_unconfigured hc, exec_next_of_unconfigured ((hR.cfg h).symm.trans hc)]
      exact .next (hR.raise h ..)
    | true =>
      obtain ⟨-, hphase, hinc⟩ := hR.shown h hc
      simp only [Machine.exec, execNext, ← hR.cfg h, ← hR.hw h, ← hphase, ← hinc, hc, Bool.not_true,
        Bool.false_eq_true, if_false]
      split
      · exact .of_fault
      split
      · exact .of_fault
      next out _ =>
        have hset := hR.respond (hR.setPhase h (advance s.hw.N s.phase s.inc)) .ok out
        simp only [← hR.cfg h, ← hR.hw h, ← hinc, hc] at hset
        exact .next hset
  | resolve std c1 c0 =>
    simp only [Machine.exec, execResolve, ← hR.hw h]
    split
    · exact .next (hR.raise h ..)
    split
    · exact .next (hR.respond h ..)
    · exact .next (hR.respond h ..)
  | rd idx =>
    simp only [Machine.exec, execRd, ← hR.cfg h]
    split
    · exact .next (hR.raise h ..)
    next r hr =>
      split
      · exact .next (hR.raise h ..)
      next hn =>
        have hread : Machine.readReg r s = Machine.readReg r s' :=
          hR.readReg h (by simpa using hn) (by rintro rfl; exact herr (congrArg _ (readRegOf_eq_status hr)))
        exact .next (hread ▸ hR.respond h ..)
  | rdtab tidx =>
    simp only [Machine.exec, execRdtab, ← hR.hw h]
    split
    · exact .next (hR.raise h ..)
    · exact .next (hR.respond h ..)

theorem Congruence.runCommand {c : CommandWord} (herr : decode c = .ok (.rd 3) → s.err = s'.err) :
    Simulates R (runCommand c s) (runCommand c s') := by
  unfold Machine.runCommand
  split
  next i hd => exact hR.exec h fun hi => herr (hi ▸ hd)
  · exact .next (hR.raise h ..)

end

/-! ### ERR (R20) -/

/-- The same oscillator and the same responses: the states may differ in ERR. -/
structure SameButErr (s t : State) : Prop extends SameOscillator s t where
  responses : s.responses = t.responses

theorem sameButErr_congruence : Congruence SameButErr where
  hw h := h.hw
  cfg h := h.cfg
  shown h _ := ⟨h.sr, h.phase, h.inc⟩
  respond h _ _ := ⟨⟨h.hw, h.cfg, h.sr, h.phase, h.inc⟩, congrArg (· ++ _) h.responses⟩
  raise h _ _ := ⟨⟨h.hw, h.cfg, h.sr, h.phase, h.inc⟩, congrArg (· ++ _) h.responses⟩
  construct h _ := ⟨⟨h.hw, rfl, rfl, rfl, rfl⟩, h.responses⟩
  clearCfg h := ⟨⟨h.hw, rfl, h.sr, h.phase, h.inc⟩, h.responses⟩
  setInc h _ := ⟨⟨h.hw, h.cfg, h.sr, h.phase, rfl⟩, h.responses⟩
  setPhase h _ := ⟨⟨h.hw, h.cfg, h.sr, rfl, h.inc⟩, h.responses⟩

theorem Status.setsErr_iff (st : Status) :
    st.setsErr = true ↔ st = .invalidArgument ∨ st = .notConfigured ∨ st = .illegalCommand := by
  cases st <;> decide

/-- `exec_answers` for every command word. -/
theorem runCommand_answers {c : CommandWord} {s t : State} (h : runCommand c s = .next t) :
    ∃ r : Response, t.responses = s.responses ++ [r] ∧ t.err = (s.err || r.status.setsErr) ∧
      t.hw = s.hw ∧ t.port = s.port := by
  obtain ⟨i, -, hi⟩ | ⟨e, -, rfl⟩ := runCommand_cases h
  · exact exec_answers hi
  · exact ⟨⟨.illegalCommand, 0⟩, rfl, (Bool.or_true _).symm, rfl, rfl⟩

/-- ERR changes neither a command's effect on the oscillator nor any response but that of RD STATUS. -/
theorem runCommand_withErr {c : CommandWord} {s t : State} (b : Bool) (h : runCommand c s = .next t) :
    ∃ t', runCommand c { s with err := b } = .next t' ∧ SameOscillator t t' ∧
      (decode c ≠ .ok (.rd 3) → t'.responses = t.responses) := by
  by_cases hd : decode c = .ok (.rd 3)
  · have run (u : State) : runCommand c u = .next (respond .ok (statusWord u.cfg u.err) u) :=
      accept_command_of_decode hd u
    obtain rfl := Host.Outcome.next.inj ((run s).symm.trans h)
    exact ⟨_, run _, ⟨rfl, rfl, rfl, rfl, rfl⟩, fun hne => absurd hd hne⟩
  · have hsame : SameButErr s { s with err := b } := ⟨⟨rfl, rfl, rfl, rfl, rfl⟩, rfl⟩
    obtain ⟨t', ht', hsame'⟩ := sameButErr_congruence.runCommand hsame (absurd · hd) t h
    exact ⟨t', ht', hsame'.toSameOscillator, fun _ => hsame'.responses.symm⟩

/-- Settles O16: ERR follows the status of the one response, and nothing but RD STATUS reads it. -/
theorem errFlagRule : Obligations.ErrFlagRule := by
  refine ⟨fun c s t h => ?_, ?_, fun s => statusWord_err s.cfg s.err, fun c s t b h => runCommand_withErr b h⟩
  · obtain ⟨⟨st, data⟩, hresp, herr, -, -⟩ := runCommand_answers h
    exact ⟨st, data, hresp, by rw [herr, Bool.or_eq_true, Status.setsErr_iff]⟩
  · rintro s t h
    exact Host.Outcome.next.inj h ▸ resetBlock_err s

/-! ### The hidden registers (R31) -/

theorem sameButHidden_congruence : Congruence SameButHidden where
  hw h := h.hw
  cfg h := h.cfg
  shown h := h.shown
  respond h _ _ := ⟨h.hw, h.cfg, h.err, h.port, congrArg (· ++ _) h.responses, h.shown⟩
  raise h _ _ := ⟨h.hw, h.cfg, rfl, h.port, congrArg (· ++ _) h.responses, h.shown⟩
  construct h _ := ⟨h.hw, rfl, h.err, h.port, h.responses, fun _ => ⟨rfl, rfl, rfl⟩⟩
  clearCfg h := ⟨h.hw, rfl, h.err, h.port, h.responses, nofun⟩
  setInc h _ := ⟨h.hw, h.cfg, h.err, h.port, h.responses,
    fun hc => ⟨(h.shown hc).1, (h.shown hc).2.1, rfl⟩⟩
  setPhase h _ := ⟨h.hw, h.cfg, h.err, h.port, h.responses,
    fun hc => ⟨(h.shown hc).1, rfl, (h.shown hc).2.2⟩⟩

theorem SameButHidden.accept {s s' : State} (h : SameButHidden s s') (e : PortEvent) :
    Simulates SameButHidden (accept e s) (accept e s') := by
  cases e with
  | command c => exact sameButHidden_congruence.runCommand h fun _ => h.err
  | reset => exact .next ⟨h.hw, rfl, rfl, h.port, h.responses, nofun⟩

theorem SameButHidden.acceptAll {s s' : State} (h : SameButHidden s s') (es : List PortEvent) :
    Simulates SameButHidden (acceptAll es s) (acceptAll es s') := by
  induction es generalizing s s' with
  | nil => exact .next h
  | cons e es ih => exact (h.accept e).andThen fun _ _ ht => ih ht

/-- Settles O41: `SameButHidden` is kept by every event, and it includes the responses. -/
theorem hiddenRegistersAreUnobservable : Obligations.HiddenRegistersAreUnobservable := by
  intro es s s' t h ht
  obtain ⟨t', ht', hsame⟩ := h.acceptAll es t ht
  exact ⟨t', ht', hsame.responses.symm, hsame⟩

/-! ### Reset (R30) -/

/-- The table length fits the readback word (10_state R24). -/
theorem toNat_readReg_tableLen (s : State) : (readReg .tableLen s).toNat = s.hw.N := by
  obtain ⟨-, hN⟩ := s.hw.bounds
  simp only [readReg, BitVec.toNat_ofNat]
  omega

/-- Settles O13: both resets write the same five values, and a reset nothing else. -/
theorem resetValues : Obligations.ResetValues :=
  ⟨⟨rfl, rfl, rfl, rfl, rfl⟩, fun s => ⟨resetBlock s, rfl, rfl, rfl, rfl, rfl, rfl, rfl, rfl, rfl,
    toNat_readReg_tableLen (resetBlock s)⟩⟩

end Sys2Proof.Machine
end

section
/-! The proof of the statement of 20_memory: the order in which the pending events are accepted (R43). -/

namespace Sys2Proof.Machine

/-! ### The pending events (20_memory R43)

No command looks at the events still pending, so accepting one goes on alike whatever is pending after it. -/

/-- The state with the events `es` pending (log 2). -/
def State.withPort (es : List PortEvent) (s : State) : State := { s with port := es }

theorem andThen_assoc (o : Result) (f g : State → Result) :
    andThen (andThen o f) g = andThen o fun t => andThen (f t) g := by
  cases o <;> rfl

/-- A command answers the same with other events pending, and leaves those pending; a stop stays the same stop. -/
theorem exec_withPort (i : Instr) (es : List PortEvent) (s : State) :
    exec i (s.withPort es) = andThen (exec i s) fun t => .next (t.withPort es) := by
  -- with the fields as variables, both sides test the same conditions
  obtain ⟨hw, cfg, err, sr, phase, inc, port, responses⟩ := s
  cases i with
  | init w =>
    dsimp only [exec, execInit]
    split <;> rfl
  | setf w =>
    dsimp only [exec, execSetf, State.withPort]
    split
    · rfl
    split
    · rfl
    split
    · rfl
    split <;> rfl
  | next =>
    dsimp only [exec, execNext, State.withPort]
    split
    · rfl
    split
    · rfl
    split <;> rfl
  | resolve std c1 c0 =>
    dsimp only [exec, execResolve]
    split
    · rfl
    split <;> rfl
  | rd idx =>
    dsimp only [exec, execRd, State.withPort]
    split
    · rfl
    split <;> rfl
  | rdtab tidx =>
    dsimp only [exec, execRdtab, State.withPort]
    split <;> rfl

/-- `exec_withPort` for every event: the block never looks at what the host presents later. -/
theorem accept_withPort (e : PortEvent) (es : List PortEvent) (s : State) :
    accept e (s.withPort es) = andThen (accept e s) fun t => .next (t.withPort es) := by
  cases e with
  | command c =>
    simp only [accept, runCommand]
    split
    · exact exec_withPort ..
    · rfl
  | reset => rfl

/-- Going on from an accepted event, only what the continuation makes of the pending events counts. -/
theorem andThen_accept_withPort (e : PortEvent) (es : List PortEvent) (s : State) (f : State → Result) :
    andThen (accept e (s.withPort es)) f = andThen (accept e s) fun t => f (t.withPort es) := by
  rw [accept_withPort, andThen_assoc]; rfl

/-- Settles O11, by induction on the pending events: the step takes the oldest one, and the acceptance of it
does not depend on the others. -/
theorem stepsAcceptTheEventsInOrder : Obligations.StepsAcceptTheEventsInOrder := by
  intro es
  induction es with
  | nil => exact fun _ => rfl
  | cons e es ih =>
    intro s
    calc steps (es.length + 1) (s.withPort (e :: es))
        = andThen (accept e (s.withPort es)) (steps es.length) := rfl
      _ = andThen (accept e s) (fun t => steps es.length (t.withPort es)) := andThen_accept_withPort ..
      _ = andThen (accept e s) (fun t => acceptAll es (t.withPort [])) := congrArg _ (funext ih)
      _ = andThen (accept e (s.withPort [])) (acceptAll es) := (andThen_accept_withPort ..).symm

end Sys2Proof.Machine
end

section
/-! The proofs of the statements of 30_encoding: the round trip of encoder and decoder (R48, R50, R56), the
opcode map (R51 to R54), the one response (R49) and the host's command lines
and pseudo-instructions (R61 to R64). -/

namespace Sys2Proof

/-! ### The round trip (R48, R50, R56) -/

/-- A word is the concatenation of its two parts, and of no others. -/
theorem append_eq_iff {m n : Nat} {hi : BitVec m} {lo : BitVec n} {x : BitVec (m + n)} :
    hi ++ lo = x ↔ x.extractLsb' n m = hi ∧ x.extractLsb' 0 n = lo := by
  constructor
  · rintro rfl
    exact ⟨BitVec.extractLsb'_append_eq_left, BitVec.extractLsb'_append_eq_right⟩
  · rintro ⟨rfl, rfl⟩
    exact BitVec.extractLsb'_append_extractLsb'

theorem decodeNext_eq_ok {arg : Word} {i : Instr} : decodeNext arg = .ok i ↔ i = .next ∧ arg = 0 := by
  unfold decodeNext
  split
  · rw [Except.ok.injEq, eq_comm, and_iff_left ‹_›]
  · exact ⟨nofun, fun h => absurd h.2 ‹_›⟩

theorem decodeResolve_eq_ok {arg : Word} {i : Instr} :
    decodeResolve arg = .ok i ↔ ∃ std c1 c0, i = .resolve std c1 c0 ∧ std ++ c1 ++ c0 = arg := by
  constructor
  · intro h
    refine ⟨_, _, _, (Except.ok.inj h).symm, ?_⟩
    calc arg.extractLsb' 16 16 ++ arg.extractLsb' 8 8 ++ arg.extractLsb' 0 8
        = arg.extractLsb' 8 24 ++ arg.extractLsb' 0 8 :=
          congrArg (· ++ arg.extractLsb' 0 8) (BitVec.extractLsb'_append_extractLsb'_eq_extractLsb' rfl)
      _ = arg := (append_eq_iff (m := 24) (n := 8)).2 ⟨rfl, rfl⟩
  · rintro ⟨std, c1, c0, rfl, rfl⟩
    have hstd : (std ++ c1 ++ c0).extractLsb' 16 16 = std :=
      (BitVec.extractLsb'_append_eq_of_le (by decide)).trans BitVec.extractLsb'_append_eq_left
    have hc1 : (std ++ c1 ++ c0).extractLsb' 8 8 = c1 :=
      (BitVec.extractLsb'_append_eq_of_le (by decide)).trans BitVec.extractLsb'_append_eq_right
    rw [decodeResolve, hstd, hc1, BitVec.extractLsb'_append_eq_right]

theorem decodeRd_eq_ok {arg : Word} {i : Instr} :
    decodeRd arg = .ok i ↔ ∃ idx, i = .rd idx ∧ idx.toNat ≤ 6 ∧ 0#28 ++ idx = arg := by
  simp only [append_eq_iff (m := 28) (n := 4) (x := arg)]
  unfold decodeRd
  split
  · simp_all
  split <;> simp_all [eq_comm]

theorem decodeRdtab_eq_ok {arg : Word} {i : Instr} :
    decodeRdtab arg = .ok i ↔ ∃ tidx, i = .rdtab tidx ∧ 0#16 ++ tidx = arg := by
  simp only [append_eq_iff (m := 16) (n := 16) (x := arg)]
  unfold decodeRdtab
  split
  · simp_all
  · simp_all [eq_comm]

/-- The decoder reads from each format the fields that the encoder put there. -/
theorem decode_encode {i : Instr} (h : i.wellFormed = true) : decode (encode i) = .ok i := by
  cases i with
  | init w => exact decode_commandWord 0x1 w
  | setf w => exact decode_commandWord 0x2 w
  | next => exact decode_commandWord 0x3 0
  | resolve std c1 c0 =>
    exact (decode_commandWord 0x4 _).trans (decodeResolve_eq_ok.2 ⟨std, c1, c0, rfl, rfl⟩)
  | rd idx => exact (decode_commandWord 0x5 _).trans (decodeRd_eq_ok.2 ⟨idx, rfl, of_decide_eq_true h, rfl⟩)
  | rdtab tidx => exact (decode_commandWord 0x6 _).trans (decodeRdtab_eq_ok.2 ⟨tidx, rfl, rfl⟩)

/-- Settles O1: each format's fields are read back from where they were put. -/
theorem decodeOfEncodeIsTheCommand : Obligations.DecodeOfEncodeIsTheCommand :=
  fun _ h => decode_encode h

theorem rsvField_of_decode_ok {c : CommandWord} {i : Instr} (h : decode c = .ok i) : rsvField c = 0 := by
  by_contra hr
  rw [decode, if_pos hr] at h
  cases h

/-- No bit of a word is lost: its reserved parts are zero and the rest is the operands. -/
theorem encode_of_decode_ok {c : CommandWord} {i : Instr} (h : decode c = .ok i) :
    i.wellFormed = true ∧ encode i = c := by
  obtain ⟨op, arg, rfl⟩ : ∃ op arg, c = commandWord op 0 arg :=
    ⟨opField c, argField c, by rw [← rsvField_of_decode_ok h, commandWord_fields]⟩
  rw [decode_commandWord] at h
  split_ifs at h with h1 h2 h3 h4 h5 h6
  · obtain rfl := h1; obtain rfl := Except.ok.inj h
    exact ⟨rfl, rfl⟩
  · obtain rfl := h2; obtain rfl := Except.ok.inj h
    exact ⟨rfl, rfl⟩
  · obtain rfl := h3; obtain ⟨rfl, rfl⟩ := decodeNext_eq_ok.1 h
    exact ⟨rfl, rfl⟩
  · obtain rfl := h4; obtain ⟨std, c1, c0, rfl, rfl⟩ := decodeResolve_eq_ok.1 h
    exact ⟨rfl, rfl⟩
  · obtain rfl := h5; obtain ⟨idx, rfl, hidx, rfl⟩ := decodeRd_eq_ok.1 h
    exact ⟨decide_eq_true hidx, rfl⟩
  · obtain rfl := h6; obtain ⟨tidx, rfl, rfl⟩ := decodeRdtab_eq_ok.1 h
    exact ⟨rfl, rfl⟩

/-- Settles O2: by the decoder's branches, each of which keeps the whole word. -/
theorem encodeOfDecodeIsTheWord : Obligations.EncodeOfDecodeIsTheWord :=
  fun _ _ h => encode_of_decode_ok h

theorem decode_eq_ok_iff {c : CommandWord} {i : Instr} :
    decode c = .ok i ↔ i.wellFormed = true ∧ (encode i).toNat = c.toNat := by
  rw [BitVec.toNat_inj]
  exact ⟨encode_of_decode_ok, fun ⟨hwf, hc⟩ => hc ▸ decode_encode hwf⟩

/-! ### The words of each command as numbers (R50, R52) -/

theorem decode_eq_init {c : CommandWord} {w : Word} :
    decode c = .ok (.init w) ↔ 0x1000000000 + w.toNat = c.toNat := by
  rw [decode_eq_ok_iff, Laws.EncodingFields.init w]
  exact and_iff_right rfl

theorem decode_eq_setf {c : CommandWord} {w : Word} :
    decode c = .ok (.setf w) ↔ 0x2000000000 + w.toNat = c.toNat := by
  rw [decode_eq_ok_iff, Laws.EncodingFields.setf w]
  exact and_iff_right rfl

theorem decode_eq_next {c : CommandWord} : decode c = .ok .next ↔ 0x3000000000 = c.toNat := by
  rw [decode_eq_ok_iff, Laws.EncodingFields.next]
  exact and_iff_right rfl

theorem decode_eq_resolve {c : CommandWord} {std : BitVec 16} {c1 c0 : BitVec 8} :
    decode c = .ok (.resolve std c1 c0) ↔
      0x4000000000 + (std.toNat * 2 ^ 16 + c1.toNat * 2 ^ 8 + c0.toNat) = c.toNat := by
  rw [decode_eq_ok_iff, Laws.EncodingFields.resolve std c1 c0]
  exact and_iff_right rfl

theorem decode_eq_rd {c : CommandWord} {idx : BitVec 4} :
    decode c = .ok (.rd idx) ↔ idx.toNat ≤ 6 ∧ 0x5000000000 + idx.toNat = c.toNat := by
  rw [decode_eq_ok_iff, Laws.EncodingFields.rd idx]
  exact and_congr_left' decide_eq_true_iff

theorem decode_eq_rdtab {c : CommandWord} {tidx : BitVec 16} :
    decode c = .ok (.rdtab tidx) ↔ 0x6000000000 + tidx.toNat = c.toNat := by
  rw [decode_eq_ok_iff, Laws.EncodingFields.rdtab tidx]
  exact and_iff_right rfl

/-- Where the word of a command can be non-zero, by opcode: R54's reserved bits are zero. -/
theorem fields_of_decode_ok {c : CommandWord} {i : Instr} (h : decode c = .ok i) :
    (1 ≤ c.toNat / 2 ^ 36 ∧ c.toNat / 2 ^ 36 ≤ 6) ∧ c.toNat / 2 ^ 32 % 2 ^ 4 = 0 ∧
    (c.toNat / 2 ^ 36 = 3 → c.toNat % 2 ^ 32 = 0) ∧
    (c.toNat / 2 ^ 36 = 5 → c.toNat % 2 ^ 32 / 2 ^ 4 = 0 ∧ c.toNat % 2 ^ 32 % 2 ^ 4 ≤ 6) ∧
    (c.toNat / 2 ^ 36 = 6 → c.toNat % 2 ^ 32 / 2 ^ 16 = 0) := by
  cases i with
  | init w => have := decode_eq_init.1 h; omega
  | setf w => have := decode_eq_setf.1 h; omega
  | next => have := decode_eq_next.1 h; omega
  | resolve std c1 c0 => have := decode_eq_resolve.1 h; omega
  | rd idx => have := decode_eq_rd.1 h; omega
  | rdtab tidx => have := decode_eq_rdtab.1 h; omega

theorem decode_ne_ok_of_reservedOpcode {c : CommandWord} (h : c.toNat / 2 ^ 36 = 0 ∨ 7 ≤ c.toNat / 2 ^ 36)
    (i : Instr) : decode c ≠ .ok i := by
  intro hi
  obtain ⟨hop, -⟩ := fields_of_decode_ok hi
  omega

/-- Settles O4: by the number that each command's word is. -/
theorem operandsAreTheFieldsOfArg : Obligations.OperandsAreTheFieldsOfArg := by
  refine ⟨fun w => ⟨decode_encode (i := .init w) rfl, decode_encode (i := .setf w) rfl⟩, fun c i h => ?_⟩
  cases i with
  | init w => have := decode_eq_init.1 h; dsimp only; omega
  | setf w => have := decode_eq_setf.1 h; dsimp only; omega
  | next => have := decode_eq_next.1 h; dsimp only; omega
  | resolve std c1 c0 => have := decode_eq_resolve.1 h; dsimp only; omega
  | rd idx => have := decode_eq_rd.1 h; dsimp only; omega
  | rdtab tidx => have := decode_eq_rdtab.1 h; dsimp only; omega

/-! ### The opcode map (R52) -/

/-- A row's words are those that agree with its match above the `n` operand bits, which its mask leaves out. -/
theorem and_mask_eq_iff {n : Nat} {c mask m : CommandWord} (hmask : mask = BitVec.allOnes 40 <<< n)
    (hm : 2 ^ n ∣ m.toNat) : c &&& mask = m ↔ ∃ w : BitVec n, m.toNat + w.toNat = c.toNat := by
  have hhigh : (c &&& mask).toNat = 2 ^ n * (c.toNat / 2 ^ n) := by
    rw [hmask, ← BitVec.shiftLeft_ushiftRight, BitVec.toNat_shiftLeft, BitVec.toNat_ushiftRight,
      Nat.shiftLeft_eq, Nat.shiftRight_eq_div_pow, mul_comm]
    exact Nat.mod_eq_of_lt ((Nat.mul_div_le _ _).trans_lt c.isLt)
  have hsplit := Nat.div_add_mod c.toNat (2 ^ n)
  rw [← BitVec.toNat_inj, hhigh]
  constructor
  · intro h
    refine ⟨BitVec.ofNat n c.toNat, ?_⟩
    rw [BitVec.toNat_ofNat, ← h, hsplit]
  · rintro ⟨w, hw⟩
    obtain ⟨k, hk⟩ := hm
    rw [← hw, hk, Nat.mul_add_div (by positivity), Nat.div_eq_of_lt w.isLt, add_zero]

theorem toNat_and_index (c : CommandWord) : (c &&& 0xF).toNat = c.toNat % 2 ^ 4 := by
  rw [BitVec.toNat_and, ← Nat.and_two_pow_sub_one_eq_mod]
  rfl

theorem exists_decode_error {c : CommandWord} (h : ∀ i, decode c ≠ .ok i) : ∃ e, decode c = .error e := by
  cases hd : decode c with
  | error e => exact ⟨e, rfl⟩
  | ok i => exact absurd hd (h i)

/-- The row of RESOLVE: its three operands fill ARG. -/
theorem exists_decode_eq_resolve {c : CommandWord} :
    (∃ std c1 c0, decode c = .ok (.resolve std c1 c0)) ↔ ∃ w : Word, 0x4000000000 + w.toNat = c.toNat := by
  simp only [decode_eq_resolve]
  constructor
  · rintro ⟨std, c1, c0, h⟩
    exact ⟨argField c, by rw [toNat_argField]; omega⟩
  · rintro ⟨w, h⟩
    refine ⟨.ofNat 16 (w.toNat / 2 ^ 16), .ofNat 8 (w.toNat / 2 ^ 8), .ofNat 8 w.toNat, ?_⟩
    simp only [BitVec.toNat_ofNat]
    omega

/-- The row of RD: the match fixes all but the index, which is at most 6. -/
theorem exists_decode_eq_rd {c : CommandWord} :
    (∃ idx, decode c = .ok (.rd idx)) ↔
      (∃ idx : BitVec 4, 0x5000000000 + idx.toNat = c.toNat) ∧ c.toNat % 2 ^ 4 ≤ 6 := by
  simp only [decode_eq_rd]
  constructor
  · rintro ⟨idx, hle, h⟩
    exact ⟨⟨idx, h⟩, by omega⟩
  · rintro ⟨⟨idx, h⟩, hle⟩
    exact ⟨idx, by omega, h⟩

/-- Settles O3: a row's match is its opcode above operand bits that are free. -/
theorem decodeFollowsMatchAndMask : Obligations.DecodeFollowsMatchAndMask := by
  intro c
  refine ⟨?_, ?_, ?_, ?_, ?_, ?_, fun h => exists_decode_error (decode_ne_ok_of_reservedOpcode h)⟩
  · rw [and_mask_eq_iff (n := 32) (by decide) (by decide)]
    exact exists_congr fun _ => decode_eq_init
  · rw [and_mask_eq_iff (n := 32) (by decide) (by decide)]
    exact exists_congr fun _ => decode_eq_setf
  · rw [decode_eq_next, show (0xFFFFFFFFFF : CommandWord) = BitVec.allOnes 40 from rfl, BitVec.and_allOnes,
      ← BitVec.toNat_inj]
    exact eq_comm
  · rw [and_mask_eq_iff (n := 32) (by decide) (by decide)]
    exact exists_decode_eq_resolve
  · rw [and_mask_eq_iff (n := 4) (by decide) (by decide), toNat_and_index]
    exact exists_decode_eq_rd
  · rw [and_mask_eq_iff (n := 16) (by decide) (by decide)]
    exact exists_congr fun _ => decode_eq_rdtab

/-- Settles O5: by running the decoder on the words. -/
theorem wordsOfTheSpecDecode : Obligations.WordsOfTheSpecDecode := by
  unfold Obligations.WordsOfTheSpecDecode
  decide

end Sys2Proof

namespace Sys2Proof.Machine

/-! ### Words that select no command (R53, R54) -/

theorem answersIllegal_of_decode_ne_ok {c : CommandWord} (h : ∀ i, decode c ≠ .ok i) (s : State) :
    AnswersIllegal c s := by
  obtain ⟨e, he⟩ := exists_decode_error h
  simp only [AnswersIllegal, accept, runCommand, he]
  rfl

/-- Settles O7: no command's word has a reserved opcode. -/
theorem reservedOpcodeIsIllegal : Obligations.ReservedOpcodeIsIllegal :=
  fun _ s h => answersIllegal_of_decode_ne_ok (decode_ne_ok_of_reservedOpcode h) s

/-- Settles O8: the word of each command has its reserved bits zero, and those of INIT, SETF and RESOLVE are
all the words with `RSV` zero. -/
theorem reservedBitsAreIllegal : Obligations.ReservedBitsAreIllegal := by
  intro c s
  dsimp only
  refine ⟨fun h => answersIllegal_of_decode_ne_ok (fun i hi => ?_) s, fun hrsv hop => ?_⟩
  · have := fields_of_decode_ok hi
    omega
  · have harg := toNat_argField c
    rcases hop with hop | hop | hop
    · exact ⟨.init (argField c), decode_eq_init.2 (by omega)⟩
    · exact ⟨.setf (argField c), decode_eq_setf.2 (by omega)⟩
    · obtain ⟨std, c1, c0, h⟩ := exists_decode_eq_resolve (c := c).2 ⟨argField c, by omega⟩
      exact ⟨_, h⟩

/-! ### The one response (R49, R59) -/

/-- The data that a status promises (60_exceptions R125, R127, R128). -/
def Response.Coded (r : Response) : Prop :=
  (r.status = .invalidArgument → ∃ cause : Cause, r.data = cause.code) ∧
  (r.status = .notConfigured ∨ r.status = .illegalCommand → r.data = 0)

theorem Response.Coded.of_not_error {r : Response} (h : r.status.setsErr = false) : r.Coded := by
  obtain ⟨st, data⟩ := r
  cases st with
  | ok | unknownNote => exact ⟨nofun, by simp⟩
  | invalidArgument | notConfigured | illegalCommand => cases h

theorem Response.Coded.argument (c : Cause) : (Response.mk .invalidArgument c.code).Coded :=
  ⟨fun _ => ⟨c, rfl⟩, by simp⟩

theorem Response.Coded.notConfigured : (Response.mk .notConfigured 0).Coded := ⟨nofun, fun _ => rfl⟩

theorem Response.Coded.illegal : (Response.mk .illegalCommand 0).Coded := ⟨nofun, fun _ => rfl⟩

theorem exec_coded {i : Instr} {s t : State} (h : exec i s = .next t) :
    ∃ r : Response, t.responses = s.responses ++ [r] ∧ r.Coded := by
  cases i with
  | init w =>
    obtain ⟨-, rfl⟩ | ⟨-, rfl⟩ := execInit_cases h
    · exact ⟨_, rfl, .of_not_error rfl⟩
    · exact ⟨_, rfl, .argument _⟩
  | setf w =>
    obtain ⟨-, rfl⟩ | ⟨-, -, rfl⟩ | ⟨-, -, -, -, rfl⟩ | ⟨-, -, -, q, -, rfl⟩ := execSetf_cases h
    · exact ⟨_, rfl, .notConfigured⟩
    · exact ⟨_, rfl, .argument _⟩
    · exact ⟨_, rfl, .argument _⟩
    · exact ⟨_, rfl, .of_not_error rfl⟩
  | next =>
    obtain ⟨-, rfl⟩ | ⟨-, -, -, out, -, rfl⟩ := execNext_cases h
    · exact ⟨_, rfl, .notConfigured⟩
    · exact ⟨_, rfl, .of_not_error rfl⟩
  | resolve std c1 c0 =>
    obtain ⟨-, rfl⟩ | ⟨_, -, -, rfl⟩ | ⟨_, _, -, -, rfl⟩ := execResolve_cases h
    · exact ⟨_, rfl, .argument _⟩
    · exact ⟨_, rfl, .of_not_error rfl⟩
    · exact ⟨_, rfl, .of_not_error rfl⟩
  | rd idx =>
    obtain ⟨-, rfl⟩ | ⟨_, -, -, -, rfl⟩ | ⟨_, -, -, rfl⟩ := execRd_cases h
    · exact ⟨_, rfl, .illegal⟩
    · exact ⟨_, rfl, .notConfigured⟩
    · exact ⟨_, rfl, .of_not_error rfl⟩
  | rdtab tidx =>
    obtain ⟨-, rfl⟩ | ⟨w, -, rfl⟩ := execRdtab_cases h
    · exact ⟨_, rfl, .argument _⟩
    · exact ⟨_, rfl, .of_not_error rfl⟩

theorem runCommand_coded {c : CommandWord} {s t : State} (h : runCommand c s = .next t) :
    ∃ r : Response, t.responses = s.responses ++ [r] ∧ r.Coded := by
  obtain ⟨i, -, hi⟩ | ⟨e, -, rfl⟩ := runCommand_cases h
  · exact exec_coded hi
  · exact ⟨_, rfl, .illegal⟩

theorem Response.toNat_word (r : Response) : r.word.toNat = r.status.code.toNat * 2 ^ 32 + r.data.toNat :=
  toNat_append_eq ..

/-- Settles O12: each outcome of each command appends one response of the promised form. -/
theorem oneResponsePerCommand : Obligations.OneResponsePerCommand := by
  refine ⟨fun c s t h => runCommand_coded h, ?_, ?_⟩
  · rintro ⟨st, data⟩
    rw [Response.toNat_word]
    cases st <;> rfl
  · intro cause
    cases cause <;> rfl

/-! ### The host's command lines and pseudo-instructions (R61 to R64) -/

/-- Settles O6: by assembling the lines. -/
theorem assemblerExamples : Obligations.AssemblerExamples := by
  unfold Obligations.AssemblerExamples
  decide

/-- The host's issue of a command runs it. -/
theorem runCommand_encode {i : Instr} (h : i.wellFormed = true) (s : State) : runCommand (encode i) s = exec i s :=
  accept_command_of_decode (decode_encode h) s

theorem lastResponse_of_append {s t : State} {r : Response} (h : t.responses = s.responses ++ [r]) :
    lastResponse t = some r := by
  rw [lastResponse, h, List.getLast?_concat]

/-- Settles O52: the host decides on the second command by the response to the first. -/
theorem setnIsResolveThenSetf : Obligations.SetnIsResolveThenSetf := by
  intro std c1 c0 s t st data hresolve hresp
  rw [setn, runCommand_encode rfl, hresolve, andThen_next, lastResponse_of_append hresp]
  refine ⟨?_, ?_⟩
  · rintro (rfl | rfl) <;> exact runCommand_encode rfl t
  · rintro rfl
    rfl

/-- Settles O57: as SETN, with the segment after its second command. -/
theorem playIsSetnThenSegment : Obligations.PlayIsSetnThenSegment := by
  intro std c1 c0 d r s t st data hresolve hresp
  rw [play, playSamples, runCommand_encode rfl, hresolve, andThen_next, lastResponse_of_append hresp]
  refine ⟨?_, ?_⟩
  · rintro (rfl | rfl) <;> exact congrArg (andThen · _) (runCommand_encode rfl t)
  · rintro rfl
    rfl

/-! ### Segments (R63, 43_sink_and_sequencer R109) -/

/-- In a state of R21 every sample is a finite value in [-1, 1] (41_oscillator R90). -/
theorem sample_range {s : State} (h : s.Inv) {out : Word} (hs : sample s.hw s.phase = some out) :
    F32.fin out = true ∧ -1 ≤ F32.val out ∧ F32.val out ≤ 1 := by
  obtain ⟨t0, t1, h0, h1, rfl⟩ := sample_eq_some.1 hs
  obtain ⟨-, hphase, -⟩ := h.finite
  obtain ⟨hfin, hmag⟩ := interpolate_range hphase ((F32.val_nonneg_iff _).1 h.phase.1) (memRead_ok h0).2
    (memRead_ok h1).2
  exact ⟨hfin, F32.val_abs_le_one hmag⟩

/-- What a segment of NEXT commands that answered `samples` makes of the ready state `s`. -/
structure Segment (s : State) (samples : List Word) (t : State) : Prop where
  ready : t.Ready
  responses : t.responses = s.responses ++ samples.map (fun w => ⟨.ok, w⟩)
  range : ∀ w ∈ samples, F32.fin w = true ∧ -1 ≤ F32.val w ∧ F32.val w ≤ 1
  sr : t.sr = s.sr
  inc : t.inc = s.inc
  err : t.err = s.err

theorem Segment.nil {s : State} (h : s.Ready) : Segment s [] s :=
  ⟨h, by simp, by simp, rfl, rfl, rfl⟩

theorem Segment.append {s t u : State} {ws vs : List Word} (h : Segment s ws t) (h' : Segment t vs u) :
    Segment s (ws ++ vs) u where
  ready := h'.ready
  responses := by rw [h'.responses, h.responses, List.map_append, List.append_assoc]
  range w hw := (List.mem_append.1 hw).elim (h.range w) (h'.range w)
  sr := h'.sr.trans h.sr
  inc := h'.inc.trans h.inc
  err := h'.err.trans h.err

/-- One NEXT of a ready block answers one sample and leaves the block ready. -/
theorem runCommand_next_segment {s : State} (h : s.Ready) :
    ∃ out t, runCommand (encode .next) s = .next t ∧ Segment s [out] t := by
  obtain ⟨out, hout, hrun⟩ := next_spec h
  rw [← runCommand_next] at hrun
  exact ⟨out, _, hrun, ⟨(runCommand_effect hrun).inv h.inv, h.configured⟩, rfl,
    by simpa using sample_range h.inv hout, rfl, rfl, rfl⟩

theorem seg_succ (K : Nat) (s : State) : seg (K + 1) s = andThen (runCommand (encode .next) s) (seg K) := rfl

theorem seg_segment (K : Nat) {s : State} (h : s.Ready) :
    ∃ t samples, seg K s = .next t ∧ samples.length = K ∧ Segment s samples t := by
  induction K generalizing s with
  | zero => exact ⟨s, [], rfl, rfl, .nil h⟩
  | succ K ih =>
    obtain ⟨out, t, hrun, hone⟩ := runCommand_next_segment h
    obtain ⟨u, samples, hseg, hlen, hrest⟩ := ih hone.ready
    exact ⟨u, out :: samples, by rw [seg_succ, hrun, andThen_next, hseg], congrArg (· + 1) hlen,
      hone.append hrest⟩

/-- Settles O51: by induction on the count, from what one NEXT makes of a ready state. -/
theorem segmentAnswersKSamples : Obligations.SegmentAnswersKSamples := by
  intro K s h
  obtain ⟨t, samples, hseg, hlen, hsegment⟩ := seg_segment K h
  obtain ⟨hready, hresp, hrange, hsr, hinc, herr⟩ := hsegment
  exact ⟨t, samples, hseg, hready, hlen, hresp, hrange, hsr, hinc, herr⟩

end Sys2Proof.Machine
end

section
/-! The proofs of the statements of 40_wavetable: the construction of a table (R67) and the sine's (R70), the
symmetries of the default table (R72), the wrap (R71), the tables' immutability (R73) and RDTAB (R74). -/

namespace Sys2Proof.F32

/-! ### Rounding into [-1, 1] (R67) -/

theorem rounds_of_eq {x : ℝ} {q : ℚ} {w : Word} (hx : x = q) (hw : rnd q = w) : Rounds x w := by
  subst hx hw
  exact rounds_rnd q

theorem rounds_zero : Rounds 0 0x00000000 := rounds_of_eq Rat.cast_zero.symm rnd_zero

theorem rounds_one : Rounds 1 0x3F800000 := rounds_of_eq Rat.cast_one.symm (by decide +kernel)

theorem rounds_negOne : Rounds (-1) 0xBF800000 := rounds_of_eq (q := -1) (by simp) (by decide +kernel)

theorem fin_one : fin 0x3F800000 = true ∧ val 0x3F800000 = 1 := by
  have hu : units 0x3F800000 = 1 * one := by decide +kernel
  exact ⟨by decide, by exact_mod_cast val_of_units hu⟩

theorem fin_negOne : fin 0xBF800000 = true ∧ val 0xBF800000 = -1 := by
  have hu : units 0xBF800000 = -1 * one := by decide +kernel
  exact ⟨by decide, by exact_mod_cast val_of_units hu⟩

/-- A real in [-1, 1] rounds into [-1, 1]: the words of 1 and -1 are at least as far from it. -/
theorem Rounds.range {x : ℝ} {w : Word} (h : Rounds x w) (hlo : -1 ≤ x) (hhi : x ≤ 1) :
    fin w = true ∧ -1 ≤ val w ∧ val w ≤ 1 := by
  obtain ⟨-, -, hfinite⟩ := h
  obtain ⟨hfin, hnear⟩ := hfinite ((abs_le.2 ⟨hlo, hhi⟩).trans_lt (by norm_num))
  have hone := (hnear _ fin_one.1).1
  rw [fin_one.2, Rat.cast_one, abs_of_nonpos (sub_nonpos.2 hhi)] at hone
  have hnegOne := (hnear _ fin_negOne.1).1
  rw [fin_negOne.2, Rat.cast_neg, Rat.cast_one, abs_of_nonneg (sub_nonneg.2 hlo)] at hnegOne
  have hlo' : (-1 : ℝ) ≤ val w := by linarith [le_abs_self (x - val w)]
  have hhi' : (val w : ℝ) ≤ 1 := by linarith [neg_le_abs (x - val w)]
  exact ⟨hfin, by exact_mod_cast hlo', by exact_mod_cast hhi'⟩

end Sys2Proof.F32

namespace Sys2Proof.Machine

open F32

/-! ### The construction of a table (R67, R70) -/

section Construction

variable {N : Nat} {g : Nat → Nat → ℝ}

/-- A length outside R67's bounds gives the failure and no table. -/
theorem wtNew_iff_of_badLength (hN : N < 2 ∨ 65536 < N) (r : Except Cause (List Word)) :
    WtNew N g r ↔ r = .error .badTableLength := by
  cases r with
  | error c => rw [Except.error.injEq]; exact and_iff_right hN
  | ok table => simp only [WtNew, reduceCtorEq, iff_false]; omega

/-- With `w` the rounded values of the generator, WT_NEW gives the table of their first `N`, and no other. -/
theorem wtNew_iff_of_rounds {w : Nat → Word} (hw : ∀ n, Rounds (g n N) (w n)) (hlo : 2 ≤ N) (hhi : N ≤ 65536)
    (r : Except Cause (List Word)) : WtNew N g r ↔ r = .ok ((List.range N).map w) := by
  cases r with
  | error c => simp only [WtNew, reduceCtorEq, iff_false]; omega
  | ok table =>
    rw [Except.ok.injEq]
    constructor
    · rintro ⟨-, -, hlen, hentry⟩
      refine List.ext_getElem (by simp [hlen]) fun n hn _ => ?_
      simpa using (hentry n _ (List.getElem?_eq_getElem hn)).unique (hw n)
    · rintro rfl
      refine ⟨hlo, hhi, by simp, fun n v hv => ?_⟩
      obtain ⟨k, hk, rfl⟩ : ∃ k, (List.range N)[n]? = some k ∧ w k = v := by simpa using hv
      obtain ⟨-, rfl⟩ : n < N ∧ n = k := by simpa [List.getElem?_eq_some_iff] using hk
      exact hw n

end Construction

/-- The model's computation for a rational-valued generator is WT_NEW (log 8). -/
theorem wtNew_spec (N : Nat) (g : Nat → Nat → ℚ) : WtNew N (fun n N => (g n N : ℝ)) (wtNew N g) := by
  unfold wtNew
  split
  · exact (wtNew_iff_of_badLength (.inl ‹_›) _).2 rfl
  · split
    · exact (wtNew_iff_of_badLength (.inr ‹_›) _).2 rfl
    · exact (wtNew_iff_of_rounds (fun n => rounds_rnd (g n N)) (by omega) (by omega) _).2 rfl

/-- Settles O46: every real rounds to one word, which is in [-1, 1] when the real is. -/
theorem wavetableConstruction : Obligations.WavetableConstruction := by
  refine ⟨fun N g => ⟨wtNew_iff_of_badLength, fun hlo hhi => ?_⟩, wtNew_spec⟩
  have hround (n : Nat) : ∃ w, Rounds (g n N) w :=
    (realRoundingIsUnique.1 (g n N)).imp fun w hw => (hw w).2 rfl
  choose w hw using hround
  refine ⟨(List.range N).map w, wtNew_iff_of_rounds hw hlo hhi, by simp, fun n hn => ⟨w n, ?_, hw n⟩,
    fun hrange v hv => ?_⟩
  · simp [hn]
  · obtain ⟨n, hn, rfl⟩ := List.mem_map.1 hv
    obtain ⟨h1, h2⟩ := hrange n (List.mem_range.1 hn)
    exact (hw n).range h1 h2

/-- An entry of the sine's table, by the angle it is for and the sine of that angle. -/
theorem rounds_sine {n N : Nat} {angle x : ℝ} {v w : Word} (hangle : 2 * Real.pi * n / N = angle)
    (hsin : Real.sin angle = x) (hw : Rounds x w) (hv : some w = some v) :
    Rounds (Real.sin (2 * Real.pi * n / N)) v := by
  obtain rfl := Option.some.inj hv
  rwa [hangle, hsin]

theorem isSineTable_four : IsSineTable 4 [0x00000000, 0x3F800000, 0x00000000, 0xBF800000] :=
  ⟨by decide, by decide, rfl, fun
    | 0, _, h => rounds_sine (by simp) Real.sin_zero rounds_zero h
    | 1, _, h => rounds_sine (by push_cast; ring) Real.sin_pi_div_two rounds_one h
    | 2, _, h => rounds_sine (by push_cast; ring) Real.sin_pi rounds_zero h
    | 3, _, h => rounds_sine (by push_cast; ring)
        ((Real.sin_add_pi (Real.pi / 2)).trans (congrArg Neg.neg Real.sin_pi_div_two)) rounds_negOne h
    | _ + 4, _, h => nomatch h⟩

theorem isSineTable_two : IsSineTable 2 [0x00000000, 0x00000000] :=
  ⟨by decide, by decide, rfl, fun
    | 0, _, h => rounds_sine (by simp) Real.sin_zero rounds_zero h
    | 1, _, h => rounds_sine (by push_cast; ring) Real.sin_pi rounds_zero h
    | _ + 2, _, h => nomatch h⟩

theorem not_isSineTable_of_badLength {N : Nat} (hN : N < 2 ∨ 65536 < N) (table : List Word) :
    ¬ IsSineTable N table := fun h =>
  nomatch (wtNew_iff_of_badLength hN _).1 h

/-- Settles O59: the entries are at multiples of a quarter of the period, and a bad length fails. -/
theorem sineTableExamples : Obligations.SineTableExamples :=
  ⟨isSineTable_four, isSineTable_two, fun table =>
    ⟨not_isSineTable_of_badLength (by decide) table, not_isSineTable_of_badLength (by decide) table,
      not_isSineTable_of_badLength (by decide) table⟩⟩

/-! ### The default table (R72) -/

/-- Settles O47: by inspection of the 64 words (R72). -/
theorem defaultTableSymmetries : Obligations.DefaultTableSymmetries := by
  unfold Obligations.DefaultTableSymmetries
  decide +kernel

/-! ### The wrap (R71) -/

/-- Where the phase has no fraction, the interpolation gives the first of its entries, in value. -/
theorem val_interpolate_of_frac_zero {p t0 : Word} (t1 : Word) (hp : subNat p (index0 p) = 0x00000000)
    (h0 : fin t0 = true) : val (interpolate p t0 t1) = val t0 := by
  have hw0 : oneSub 0x00000000 = 0x3F800000 := by decide +kernel
  have hp1 : units (mul 0x00000000 t1) = 0 := units_eq_zero_iff.2 (by
    rw [code_mul, show magUnits 0x00000000 = 0 by decide, Nat.zero_mul, rndMag_zero])
  rw [interpolate, hp, hw0, one_mul_word h0, val_eq_units, val_eq_units, (add_zero_word h0 hp1).1]

theorem units_of_val_nat {w : Word} {n : Nat} (h : val w = n) : units w = n * one := by
  rw [val_eq_units, div_eq_iff one_pos.ne'] at h; exact_mod_cast h

/-- A sum of exactly N advances to +0 (41_oscillator R87). -/
theorem advance_of_sum_eq {N : Nat} {p i : Word} (h : val (add p i) = N) : advance N p i = 0x00000000 := by
  have hu : magUnits (add p i) = N * one := by
    rw [← natAbs_units, units_of_val_nat h, Int.natAbs_mul, Int.natAbs_natCast, Int.natAbs_natCast]
  rw [advance, modNat_eq, hu, Nat.mod_self]
  decide

/-- At phase 0 the sample is entry 0, in value (41_oscillator R89). -/
theorem sample_phase_zero (hw : Config) :
    ∃ t0 out, memRead hw 0 = some t0 ∧ sample hw 0x00000000 = some out ∧ val out = val t0 := by
  obtain ⟨t0, h0⟩ := memRead_of_lt (hw := hw) (a := 0) (by have := hw.bounds; omega)
  obtain ⟨t1, h1⟩ := memRead_of_lt (index1_lt hw 0x00000000)
  have hfrac : subNat 0x00000000 (index0 0x00000000) = 0x00000000 := by decide +kernel
  exact ⟨t0, _, h0, sample_eq_some.2 ⟨t0, t1, h0, h1, rfl⟩,
    val_interpolate_of_frac_zero t1 hfrac (memRead_ok h0).1⟩

/-- Settles O27: the advance leaves +0, where the next NEXT answers entry 0. -/
theorem periodicityAtTheWrap : Obligations.PeriodicityAtTheWrap := by
  intro s hs hwrap
  obtain ⟨_, -, hnext⟩ := next_spec hs
  rw [advance_of_sum_eq hwrap] at hnext
  have hready : State.Ready _ := ⟨(exec_effect (i := .next) hnext).inv hs.inv, hs.configured⟩
  obtain ⟨out, hout, hnext'⟩ := next_spec hready
  obtain ⟨t0, out', h0, hout', hval⟩ := sample_phase_zero s.hw
  obtain rfl : out' = out := Option.some.inj (hout'.symm.trans hout)
  exact ⟨_, _, t0, out', hnext, rfl, hnext', lastResponse_respond .., h0, hval⟩

/-! ### The tables are read-only (R73) -/

theorem step_hw {s t : State} (h : step s = .next t) : t.hw = s.hw := by
  obtain ⟨-, rfl⟩ | ⟨c, rest, -, hrun⟩ | ⟨rest, -, rfl⟩ := step_cases h
  · rfl
  · obtain ⟨r, -, -, hhw, -⟩ := runCommand_answers hrun
    exact hhw
  · rfl

theorem Reaches.hw_eq {s t : State} (h : Reaches s t) : t.hw = s.hw := by
  induction h with
  | refl => rfl
  | tail _ hstep ih => exact (step_hw hstep).trans ih

/-- Settles O37: both tables are parts of the configuration, which no step writes. -/
theorem tablesAreNeverWritten : Obligations.TablesAreNeverWritten := by
  intro s t h
  have hhw := h.hw_eq
  exact ⟨hhw, fun a => by rw [hhw], fun hz p => by rw [hhw]⟩

/-! ### RDTAB (R74) -/

theorem exec_rdtab_of_memRead {tidx : BitVec 16} {s : State} {w : Word} (h : memRead s.hw tidx.toNat = some w) :
    exec (.rdtab tidx) s = .next (respond .ok w s) := by
  simp only [exec, execRdtab, h]

theorem exec_rdtab_of_no_entry {tidx : BitVec 16} {s : State} (h : s.hw.N ≤ tidx.toNat) :
    exec (.rdtab tidx) s = .next (raiseArgument .badIndex s) := by
  simp only [exec, execRdtab, memRead_eq_none.2 h]

/-- Settles O34: by whether the table has the location, and by the word RDTAB decodes from. -/
theorem rdtabFollowsItsPseudocode : Obligations.RdtabFollowsItsPseudocode := by
  refine fun tidx s => ⟨Laws.EncodingFields.rdtab tidx, exec_rdtab_of_no_entry,
    fun h => exec_rdtab_of_memRead (List.getElem?_eq_getElem h), fun c hop hrsv => ?_⟩
  refine answersIllegal_of_decode_ne_ok (fun i hi => ?_) s
  have := fields_of_decode_ok hi
  omega

end Sys2Proof.Machine
end

section
/-! The proofs of the statements of 41_oscillator: the arithmetic (R75), INIT (R76, R77), SETF with its
frequency check and its zeros (R78 to R84), NEXT with its indices, its advance and its samples (R85 to R90),
and the finiteness of the answers (R96). -/

namespace Sys2Proof.F32

/-! ### Each operation rounds its exact result once (R75) -/

theorem val_ne_zero_iff {w : Word} : val w ≠ 0 ↔ units w ≠ 0 := not_congr val_eq_zero_iff

theorem mul_eq_rnd {a b : Word} (h : val a * val b ≠ 0) : mul a b = rnd (val a * val b) := by
  have hz : units a * units b ≠ 0 :=
    mul_ne_zero (val_ne_zero_iff.1 (left_ne_zero_of_mul h)) (val_ne_zero_iff.1 (right_ne_zero_of_mul h))
  have hval : val a * val b = ((units a * units b : ℤ) : ℚ) / ((one * one : ℕ) : ℚ) := by
    rw [val_eq_units, val_eq_units, div_mul_div_comm]; push_cast; rfl
  rw [hval, rnd_div _ (Nat.mul_pos one_pos_nat one_pos_nat), units_mul_sign a b hz, Int.natAbs_mul,
    natAbs_units, natAbs_units, Nat.mul_comm one, rndMag_scale _ _ _ one_pos_nat, mul]

theorem div_eq_rnd {a b : Word} (ha : val a ≠ 0) (hb : 0 < val b) : div a b = rnd (val a / val b) := by
  have hub : 0 < units b := (val_pos_iff b).1 hb
  have hmb : units b = magUnits b := units_of_nonneg hub.le
  have hsb : sign b = false := Machine.sign_of_pos hb
  have hval : val a / val b = (units a : ℚ) / (magUnits b : ℕ) := by
    rw [val_eq_units, val_eq_units, div_div_div_cancel_right₀ one_pos.ne', hmb]; rfl
  have hsa : decide (units a < 0) = sign a := by
    rw [Bool.eq_iff_iff, decide_eq_true_eq, units_neg_iff (val_ne_zero_iff.1 ha)]
  rw [hval, rnd_div _ (by omega), natAbs_units, hsa, div, hsb, Bool.bne_false]

theorem add_eq_rnd {a b : Word} (h : val a + val b ≠ 0) : add a b = rnd (val a + val b) := by
  have hval : val a + val b = ((units a + units b : ℤ) : ℚ) / one := by
    rw [val_eq_units, val_eq_units, ← add_div]; push_cast; rfl
  have hz : units a + units b ≠ 0 := by
    intro hz
    rw [hval, hz, Int.cast_zero, zero_div] at h
    exact h rfl
  rw [hval, rnd_units, add, if_neg fun hneg => hz hneg.1]

theorem mulNat_eq_rnd {a : Word} {n : Nat} (h : val a * n ≠ 0) : mulNat a n = rnd (val a * n) := by
  have hval : val a * n = ((units a * n : ℤ) : ℚ) / one := by
    rw [val_eq_units, div_mul_eq_mul_div]; push_cast; rfl
  have ha : units a ≠ 0 := val_ne_zero_iff.1 (left_ne_zero_of_mul h)
  have hn : (0 : ℤ) < n := by
    have : n ≠ 0 := by rintro rfl; simp at h
    omega
  have hsign : decide (units a * n < 0) = sign a := by
    rw [Bool.eq_iff_iff, decide_eq_true_eq, ← units_neg_iff ha, ← not_le,
      mul_nonneg_iff_of_pos_right hn, not_le]
  rw [hval, rnd_units, rndUnits, hsign, Int.natAbs_mul, natAbs_units, Int.natAbs_natCast, mulNat]

theorem subNat_eq_rnd (a : Word) (n : Nat) : subNat a n = rnd (val a - n) := by
  have hval : val a - n = ((units a - (one * n : Nat) : ℤ) : ℚ) / one := by
    rw [val_eq_units, div_sub' one_pos.ne']; push_cast; rfl
  rw [hval, rnd_units, subNat]

theorem oneSub_eq_rnd (a : Word) : oneSub a = rnd (1 - val a) := by
  have hval : 1 - val a = ((one - units a : ℤ) : ℚ) / one := by
    rw [val_eq_units, one_sub_div one_pos.ne']; push_cast; rfl
  rw [hval, rnd_units, oneSub]

/-- The exact modulo is the floored remainder of the value (00_scope R14). -/
theorem val_modNat {a : Word} (ha : fin a = true) (h0 : 0 ≤ val a) {n : Nat} (hn : 0 < n) (hn' : n ≤ 65536) :
    val (modNat a n) = val a - n * ⌊val a / n⌋ := by
  obtain ⟨hs, -, hm⟩ := modNat_spec ha hn hn'
  have hva : val a = (magUnits a : ℚ) / one := by
    rw [val_eq_units, units_of_nonneg ((val_nonneg_iff a).1 h0)]; rfl
  have hfloor : ⌊val a / n⌋ = ((magUnits a / (n * one) : ℕ) : ℤ) := by
    rw [hva, div_div, mul_comm (one : ℚ), ← Nat.cast_mul, Rat.floor_natCast_div_natCast, Int.natCast_div]
  have hsplit : (magUnits a : ℚ) = n * one * (magUnits a / (n * one) : ℕ) + (magUnits a % (n * one) : ℕ) := by
    exact_mod_cast (Nat.div_add_mod (magUnits a) (n * one)).symm
  rw [val_of_sign_false hs, hm, hfloor, hva, div_sub' one_pos.ne', div_left_inj' one_pos.ne', Int.cast_natCast]
  linear_combination -hsplit

/-- Settles O50: each operation is `rndMag` of the exact result in units of 2^(-149), and so is `rnd` of the
exact result. -/
theorem operationsRoundOnce : Obligations.OperationsRoundOnce := by
  intro a b ha _
  exact ⟨mul_eq_rnd, div_eq_rnd, add_eq_rnd, fun _ => mulNat_eq_rnd, subNat_eq_rnd a, oneSub_eq_rnd a,
    fun h => (floor_val h).symm, fun n h0 hn hn' => ⟨(modNat_spec ha hn hn').2.1, val_modNat ha h0 hn hn'⟩,
    isPos_iff a, isNonneg_iff a⟩

/-! ### The operand checks by word (R76, R79) -/

theorem val_pos_iff_sign_code {w : Word} : 0 < val w ↔ sign w = false ∧ code w ≠ 0 := by
  rw [val_pos_iff, Ne, ← units_eq_zero_iff]
  constructor
  · exact fun h => ⟨Machine.sign_of_pos ((val_pos_iff w).2 h), h.ne'⟩
  · rintro ⟨hs, hne⟩
    rw [units_of_sign_false hs] at hne ⊢
    omega

theorem val_nonneg_iff_sign {w : Word} : 0 ≤ val w ↔ sign w = false ∨ w = 0x80000000 := by
  refine ⟨Machine.sign_of_nonneg, ?_⟩
  rw [val_nonneg_iff]
  rintro (hs | rfl)
  · rw [units_of_sign_false hs]; omega
  · decide

/-- INIT's operand check, R76's range of words. -/
theorem fin_and_val_pos_iff (w : Word) :
    fin w = true ∧ 0 < val w ↔ 0x00000001 ≤ w.toNat ∧ w.toNat ≤ 0x7F7FFFFF := by
  have hw := toNat_eq w
  have hlt := code_lt w
  rw [fin_iff_code, val_pos_iff_sign_code, infMag]
  cases hs : sign w with
  | false => rw [hs, if_neg Bool.false_ne_true] at hw; rw [and_iff_right rfl]; omega
  | true => rw [hs, if_pos rfl] at hw; simp only [Bool.true_eq_false, false_and, and_false, false_iff]; omega

/-- SETF's operand check, R79's ranges of words. -/
theorem fin_and_val_nonneg_iff (w : Word) :
    fin w = true ∧ 0 ≤ val w ↔ w.toNat ≤ 0x7F7FFFFF ∨ w.toNat = 0x80000000 := by
  have hw := toNat_eq w
  have hlt := code_lt w
  have hneg : w = 0x80000000 ↔ w.toNat = 0x80000000 := BitVec.toNat_inj.symm
  rw [fin_iff_code, val_nonneg_iff_sign, hneg, infMag]
  cases hs : sign w with
  | false => rw [hs, if_neg Bool.false_ne_true] at hw; rw [and_iff_left (.inl rfl)]; omega
  | true => rw [hs, if_pos rfl] at hw; simp only [Bool.true_eq_false, false_or]; omega

/-! ### Zeros (R83, R84) -/

theorem val_posZero : val 0x00000000 = 0 := val_eq_zero_iff.2 (by decide)

theorem val_negZero : val 0x80000000 = 0 := val_eq_zero_iff.2 (by decide)

section
variable {z : Word} (hz : val z = 0)
include hz

theorem code_of_val_zero : code z = 0 := units_eq_zero_iff.1 (val_eq_zero_iff.1 hz)

theorem fin_of_val_zero : fin z = true := (fin_iff_code z).2 (by rw [code_of_val_zero hz]; decide)

theorem mulNat_zero_word (n : Nat) : mulNat z n = z :=
  eq_of_sign_code (sign_mulNat z n)
    (by rw [code_mulNat, magUnits_eq_zero hz, Nat.zero_mul, rndMag_zero, code_of_val_zero hz])

theorem div_zero_word {r : Word} (hr : 0 < val r) : div z r = z :=
  eq_of_sign_code (by rw [sign_div, Machine.sign_of_pos hr, Bool.bne_false])
    (by rw [code_div, magUnits_eq_zero hz, Nat.zero_mul, rndMag_zero, code_of_val_zero hz])

end

end Sys2Proof.F32

namespace Sys2Proof.Machine

open F32

/-! ### INIT (R76, R77) -/

theorem exec_init_of_accepted {w : Word} (hw : fin w = true ∧ 0 < val w) (s : State) :
    exec (.init w) s = .next (respond .ok 0 (construct w s)) :=
  if_pos (sampleRateOk_iff.2 hw)

theorem exec_init_of_rejected {w : Word} (hw : ¬ (fin w = true ∧ 0 < val w)) (s : State) :
    exec (.init w) s = .next (raiseArgument .badSampleRate { s with cfg := false }) :=
  if_neg (mt sampleRateOk_iff.1 hw)

/-- No command's word has `RSV` other than zero (30_encoding R54). -/
theorem answersIllegal_of_rsv {c : CommandWord} (h : c.toNat / 2 ^ 32 % 2 ^ 4 ≠ 0) (s : State) :
    AnswersIllegal c s := by
  refine answersIllegal_of_decode_ne_ok (fun i hi => ?_) s
  obtain ⟨-, hrsv, -⟩ := fields_of_decode_ok hi
  exact h hrsv

/-- Settles O17: by the outcome of the operand check, which is a range of words. -/
theorem initConstructsOrFails : Obligations.InitConstructsOrFails :=
  fun w s => ⟨Laws.EncodingFields.init w, fun hw => exec_init_of_accepted hw s,
    fun hw => exec_init_of_rejected hw s, fin_and_val_pos_iff w, fun _ _ hrsv => answersIllegal_of_rsv hrsv s⟩

/-! ### SETF (R78 to R81) -/

theorem exec_setf_of_rejected {w : Word} {s : State} (hc : s.cfg = true) (hw : ¬ (fin w = true ∧ 0 ≤ val w)) :
    exec (.setf w) s = .next (raiseArgument .badFrequency s) := by
  have hf : frequencyOk w = false := Bool.eq_false_iff.2 (mt frequencyOk_iff.1 hw)
  simp [exec, execSetf, hc, hf]

theorem State.Ready.divisorOk {s : State} (hs : s.Ready) : divisorOk s.sr = true := by
  obtain ⟨hsr, -, -⟩ := hs.inv.finite
  exact divisorOk_iff.2 ⟨hsr, hs.inv.rate hs.configured⟩

section
variable {w : Word} {s : State} (hs : s.Ready) (hw : fin w = true ∧ 0 ≤ val w)
include hs hw

theorem exec_setf_of_overflow (hq : increment s.hw.N w s.sr = none) :
    exec (.setf w) s = .next (raiseArgument .incrementOverflow s) := by
  simp [exec, execSetf, hs.configured, frequencyOk_iff.2 hw, hs.divisorOk, hq]

theorem exec_setf_of_increment {q : Word} (hq : increment s.hw.N w s.sr = some q) :
    exec (.setf w) s = .next (respond .ok 0 { s with inc := q }) := by
  simp [exec, execSetf, hs.configured, frequencyOk_iff.2 hw, hs.divisorOk, hq]

end

/-- Settles O18: by the checks in their order; past them the increment is stored or overflows. -/
theorem setfFollowsItsPseudocode : Obligations.SetfFollowsItsPseudocode :=
  fun w s => ⟨Laws.EncodingFields.setf w, exec_setf_of_unconfigured w, exec_setf_of_rejected,
    fun hs hfin h0 => ⟨fun hover => exec_setf_of_overflow hs ⟨hfin, h0⟩ (increment_eq_none.2 hover),
      fun hm hq => exec_setf_of_increment hs ⟨hfin, h0⟩ (increment_eq_some.2 ⟨hm, hq, rfl⟩)⟩,
    fun _ _ hrsv => answersIllegal_of_rsv hrsv s⟩

/-- Settles O19: past the frequency check no answer has cause 3. -/
theorem frequencyCheckRule : Obligations.FrequencyCheckRule := by
  intro w s hs
  rw [← fin_and_val_nonneg_iff]
  by_cases hw : fin w = true ∧ 0 ≤ val w
  · cases hq : increment s.hw.N w s.sr with
    | none => exact ⟨_, exec_setf_of_overflow hs hw hq, by simp [hw, Cause.code]⟩
    | some q => exact ⟨_, exec_setf_of_increment hs hw hq, by simp [hw]⟩
  · exact ⟨_, exec_setf_of_rejected hs.configured hw, by simp [hw, Cause.code]⟩

/-! ### RD and RESOLVE, by the outcome of their checks -/

theorem exec_rd_of_configured {idx : BitVec 4} {r : ReadReg} {s : State} (hr : readRegOf idx = some r)
    (hc : s.cfg = true) : exec (.rd idx) s = .next (respond .ok (readReg r s) s) := by
  simp [exec, execRd, hr, hc]

section
variable {std : BitVec 16} {c1 c0 : BitVec 8}

theorem exec_resolve_of_unsupported (h : standardOf std = none) (s : State) :
    exec (.resolve std c1 c0) s = .next (raiseArgument .unsupportedStandard s) := by
  simp only [exec, execResolve, h]

theorem exec_resolve_of_unknown {h : Standard} (hstd : standardOf std = some h) (hname : pitchClass c0 c1 = none)
    (s : State) : exec (.resolve std c1 c0) s = .next (respond .unknownNote defaultFreq s) := by
  simp only [exec, execResolve, hstd, hname]

theorem exec_resolve_of_note {h : Standard} {p : Fin 12} (hstd : standardOf std = some h)
    (hname : pitchClass c0 c1 = some p) (s : State) :
    exec (.resolve std c1 c0) s = .next (respond .ok (lutRead s.hw h p) s) := by
  simp only [exec, execResolve, hstd, hname]

end

/-! ### The zero frequencies (R83, R84) -/

/-- A zero of either sign is its own increment. -/
theorem increment_zero_word {N : Nat} {z r : Word} (hz : val z = 0) (hr : 0 < val r) :
    increment N z r = some z := by
  have hfin := fin_of_val_zero hz
  rw [increment_eq_some, mulNat_zero_word hz, div_zero_word hz hr]
  exact ⟨hfin, hfin, rfl⟩

theorem exec_setf_zero {z : Word} (hz : val z = 0) {s : State} (hs : s.Ready) :
    exec (.setf z) s = .next (respond .ok 0 { s with inc := z }) :=
  exec_setf_of_increment hs ⟨fin_of_val_zero hz, hz.ge⟩ (increment_zero_word hz (hs.inv.rate hs.configured))

/-- A zero increment of either sign leaves the phase: the sum is the phase itself, which is never -0. -/
theorem advance_zero_word {z : Word} (hz : val z = 0) {s : State} (h : s.Inv) :
    advance s.hw.N s.phase z = s.phase := by
  obtain ⟨-, hfin, -⟩ := h.finite
  obtain ⟨h0, hlt, hne⟩ := h.phase
  rw [advance, (add_zero_word hfin (val_eq_zero_iff.1 hz)).2 hne]
  exact modNat_self hfin hne ((val_nonneg_iff _).1 h0) ((val_lt_nat_iff _ _).1 hlt)

theorem exec_next_of_sample {s : State} (hs : s.Ready) {out : Word} (hout : sample s.hw s.phase = some out) :
    exec .next s = .next (respond .ok out { s with phase := advance s.hw.N s.phase s.inc }) := by
  obtain ⟨out', hout', hnext⟩ := next_spec hs
  obtain rfl : out' = out := Option.some.inj (hout'.symm.trans hout)
  exact hnext

theorem exec_next_of_zero_inc {s : State} (hs : s.Ready) (hz : val s.inc = 0) {out : Word}
    (hout : sample s.hw s.phase = some out) : exec .next s = .next (respond .ok out s) := by
  rw [exec_next_of_sample hs hout, advance_zero_word hz hs.inv]

/-- Settles O20: +0 is its own increment, and adding it leaves the phase. -/
theorem zeroFrequencyFreezesThePhase : Obligations.ZeroFrequencyFreezesThePhase := by
  intro s hs
  refine ⟨exec_setf_zero val_posZero hs, fun hinc => ?_⟩
  obtain ⟨out, hout, -⟩ := next_spec hs
  refine ⟨out, exec_next_of_zero_inc hs (hinc ▸ val_posZero) hout, hout, fun hphase => ?_⟩
  obtain ⟨t0, out', h0, hout', hval⟩ := sample_phase_zero s.hw
  rw [hphase, hout'] at hout
  exact ⟨t0, h0, Option.some.inj hout ▸ hval⟩

/-- The state with the increment `z`. -/
def State.withInc (z : Word) (s : State) : State := { s with inc := z }

theorem State.Ready.withInc_zero {s : State} (hs : s.Ready) {z : Word} (hz : val z = 0) :
    (s.withInc z).Ready := by
  obtain ⟨⟨⟨hsr, hphase, -⟩, hrate, -, hrange⟩, hc⟩ := hs
  exact ⟨⟨⟨hsr, hphase, fin_of_val_zero hz⟩, hrate,
    ⟨hz.ge, fun hneg => eq_negZero_iff.2 ⟨hneg, val_eq_zero_iff.1 hz⟩⟩, hrange⟩, hc⟩

/-- From `s` with a zero increment of either sign, `run` goes on alike: to one and the same state, or to
states that keep that increment and are otherwise the same. -/
def ZeroIncAlike (run : State → Result) (s : State) : Prop :=
  (∃ t, ∀ z, val z = 0 → run (s.withInc z) = .next t) ∨
  (∃ t : State, ∀ z, val z = 0 → run (s.withInc z) = .next (t.withInc z))

theorem ZeroIncAlike.of_respond {run : State → Result} {s : State} (st : Status) (data : Word)
    (h : ∀ z, val z = 0 → run (s.withInc z) = .next (respond st data (s.withInc z))) : ZeroIncAlike run s :=
  .inr ⟨respond st data s, h⟩

theorem ZeroIncAlike.of_raise {run : State → Result} {s : State} (st : Status) (data : Word)
    (h : ∀ z, val z = 0 → run (s.withInc z) = .next (raise st data (s.withInc z))) : ZeroIncAlike run s :=
  .inr ⟨raise st data s, h⟩

theorem readRegOf_eq_increment {idx : BitVec 4} : readRegOf idx = some .increment → idx = 5 := by
  revert idx; decide

theorem readReg_withInc {r : ReadReg} (hr : r ≠ .increment) (z : Word) (s : State) :
    readReg r (s.withInc z) = readReg r s := by
  cases r with
  | increment => exact absurd rfl hr
  | channels | sampleRate | remaining | status | phase | tableLen => rfl

/-- INIT and SETF may write the increment, NEXT adds it, and of the rest only RD INCREMENT reads it. -/
theorem exec_zeroIncAlike {s : State} (hs : s.Ready) {i : Instr} (hi : i ≠ .rd 5) :
    ZeroIncAlike (exec i) s := by
  cases i with
  | init w =>
    by_cases hw : fin w = true ∧ 0 < val w
    · exact .inl ⟨respond .ok 0 (construct w s), fun z _ => exec_init_of_accepted hw (s.withInc z)⟩
    · exact .inr ⟨raiseArgument .badSampleRate { s with cfg := false },
        fun z _ => exec_init_of_rejected hw (s.withInc z)⟩
  | setf w =>
    by_cases hw : fin w = true ∧ 0 ≤ val w
    · cases hq : increment s.hw.N w s.sr with
      | none => exact .of_raise _ _ fun z hz => exec_setf_of_overflow (hs.withInc_zero hz) hw hq
      | some q =>
        exact .inl ⟨respond .ok 0 { s with inc := q },
          fun z hz => exec_setf_of_increment (hs.withInc_zero hz) hw hq⟩
    · exact .of_raise _ _ fun z _ => exec_setf_of_rejected (s := s.withInc z) hs.configured hw
  | next =>
    obtain ⟨out, hout, -⟩ := next_spec hs
    exact .of_respond _ _ fun z hz => exec_next_of_zero_inc (hs.withInc_zero hz) hz hout
  | resolve std c1 c0 =>
    cases hstd : standardOf std with
    | none => exact .of_raise _ _ fun z _ => exec_resolve_of_unsupported hstd _
    | some h =>
      cases hname : pitchClass c0 c1 with
      | none => exact .of_respond _ _ fun z _ => exec_resolve_of_unknown hstd hname _
      | some p => exact .of_respond _ (lutRead s.hw h p) fun z _ => exec_resolve_of_note hstd hname _
  | rd idx =>
    cases hr : readRegOf idx with
    | none => exact .of_raise .illegalCommand 0 fun z _ => by simp only [exec, execRd, hr]; rfl
    | some r =>
      have hne : r ≠ .increment := by
        rintro rfl
        exact hi (congrArg _ (readRegOf_eq_increment hr))
      exact .of_respond _ (readReg r s) fun z _ =>
        readReg_withInc hne z s ▸ exec_rd_of_configured (s := s.withInc z) hr hs.configured
  | rdtab tidx =>
    cases hread : memRead s.hw tidx.toNat with
    | none => exact .of_raise _ _ fun z _ => exec_rdtab_of_no_entry (memRead_eq_none.1 hread)
    | some w => exact .of_respond _ _ fun z _ => exec_rdtab_of_memRead hread

theorem accept_zeroIncAlike {s : State} (hs : s.Ready) {c : CommandWord} (hc : decode c ≠ .ok (.rd 5)) :
    ZeroIncAlike (accept (.command c)) s := by
  cases hd : decode c with
  | ok i =>
    have hrun : accept (.command c) = exec i := funext (accept_command_of_decode hd)
    exact hrun ▸ exec_zeroIncAlike hs fun hi => hc (hi ▸ hd)
  | error e => exact .of_raise _ _ fun z _ => answersIllegal_of_decode_ne_ok (by simp [hd]) (s.withInc z)

/-- Settles O21: both zeros are their own increment and leave the phase, and no command but RD INCREMENT
tells them apart. -/
theorem negativeZeroRule : Obligations.NegativeZeroRule := by
  intro s hs
  have hneg : ¬ (fin 0x80000000 = true ∧ 0 < val 0x80000000) := fun h => h.2.ne' val_negZero
  refine ⟨exec_setf_zero val_negZero hs, ?_, exec_init_of_rejected hneg s, fun c hc => ?_,
    fun z => exec_rd_of_configured (r := .increment) (s := s.withInc z) rfl hs.configured⟩
  · obtain ⟨out, hout, -⟩ := next_spec hs
    exact ⟨out, exec_next_of_zero_inc (hs.withInc_zero val_negZero) val_negZero hout,
      exec_next_of_zero_inc (hs.withInc_zero val_posZero) val_posZero hout⟩
  · obtain ⟨t, ht⟩ | ⟨t, ht⟩ := accept_zeroIncAlike hs hc
    · exact ⟨t, t, ht _ val_negZero, ht _ val_posZero, rfl, rfl, .inl rfl⟩
    · exact ⟨_, _, ht _ val_negZero, ht _ val_posZero, rfl, rfl, .inr ⟨rfl, rfl⟩⟩

/-! ### NEXT (R85 to R88) -/

theorem index0_eq_floor {phase : Word} (h : 0 ≤ val phase) : (index0 phase : ℤ) = ⌊val phase⌋ :=
  (floor_val h).symm

/-- Settles O22: the model's index is the floor, its fraction is exact, and its sample is the rule's. -/
theorem nextInterpolatesThenAdvances : Obligations.NextInterpolatesThenAdvances := by
  refine ⟨Laws.EncodingFields.next, fun s hc => exec_next_of_unconfigured hc, fun s hs => ?_,
    fun c s hop hfields => answersIllegal_of_decode_ne_ok (fun i hi => ?_) s⟩
  · obtain ⟨h0, -⟩ := hs.inv.phase
    rw [← index0_eq_floor h0, Int.toNat_natCast]
    obtain ⟨out, hout, hnext⟩ := next_spec hs
    obtain ⟨t0, t1, ht0, ht1, rfl⟩ := sample_eq_some.1 hout
    obtain ⟨hfrac, hlo, hhi⟩ := frac_spec hs.inv.finite.2.1 h0
    exact ⟨hfrac, hlo, hhi, t0, t1, ht0, ht1, hnext⟩
  · have := fields_of_decode_ok hi
    omega

/-- Settles O23: the sum is finite and at or above 0, and the modulo of it is exact. -/
theorem phaseAdvanceIsExactModulo : Obligations.PhaseAdvanceIsExactModulo := by
  intro s hs
  obtain ⟨out, -, hnext⟩ := next_spec hs
  obtain ⟨hfin, hnonneg, hsign, -, hlt⟩ := advance_spec hs.inv
  have hu := units_of_sign_false hsign
  obtain ⟨hlo, hhi⟩ := s.hw.bounds
  refine ⟨_, hnext, hfin, val_modNat hfin ((val_nonneg_iff _).2 hnonneg) (by omega) hhi,
    val_nonneg_iff_sign.2 (.inl hsign), (val_lt_nat_iff _ _).2 ?_,
    fun hz => eq_of_sign_code hsign (code_of_val_zero hz)⟩
  rw [respond_phase, hu]
  exact_mod_cast hlt

/-- Settles O24: the floor of a phase below N is an address, and a table has two entries at least. -/
theorem indexLaws : Obligations.IndexLaws := by
  intro s h
  obtain ⟨h0, hlt, -⟩ := h.phase
  have hi : index0 s.phase < s.hw.N := (index0_lt_iff h0).2 hlt
  have hN := s.hw.bounds
  have hin : index0 s.phase < s.hw.N - 1 → index1 s.hw.N s.phase = index0 s.phase + 1 :=
    fun hlt => Nat.mod_eq_of_lt (by omega)
  have hlast : index0 s.phase = s.hw.N - 1 → index1 s.hw.N s.phase = 0 := fun heq => by
    rw [index1, heq, Nat.sub_add_cancel (by omega), Nat.mod_self]
  exact ⟨index0_eq_floor h0, hi, hin, hlast, by omega⟩

/-! ### Samples (R89, R90) -/

/-- Where the phase has no fraction, the interpolation only adds a zero to the first of its entries. -/
theorem interpolate_of_frac_zero {p t0 : Word} (t1 : Word) (hp : subNat p (index0 p) = 0x00000000)
    (h0 : fin t0 = true) : interpolate p t0 t1 = add t0 (mul 0x00000000 t1) := by
  have hw0 : oneSub 0x00000000 = 0x3F800000 := by decide +kernel
  rw [interpolate, hp, hw0, one_mul_word h0]

/-- Settles O25: the fraction is +0, its product with the next entry is a zero, and that zero is all that is
added to the entry. -/
theorem integerPhaseIsExact : Obligations.IntegerPhaseIsExact := by
  intro s k hs hk
  obtain ⟨h0, -⟩ := hs.inv.phase
  obtain ⟨out, hout, hnext⟩ := next_spec hs
  obtain ⟨tk, t1, htk, ht1, rfl⟩ := sample_eq_some.1 hout
  have hi : index0 s.phase = k := by
    have := index0_eq_floor h0
    rw [hk, Int.floor_natCast] at this
    exact_mod_cast this
  have hfrac : subNat s.phase (index0 s.phase) = 0x00000000 := by
    rw [hi, subNat_eq_rnd, hk, sub_self, rnd_zero]
  obtain ⟨hfin, -⟩ := memRead_ok htk
  have hp1 : val (mul 0x00000000 t1) = 0 := by
    rw [mul_of_val_zero (by rw [val_posZero, zero_mul])]
    split
    · exact val_posZero
    · exact val_negZero
  have hval := val_interpolate_of_frac_zero t1 hfrac hfin
  rw [interpolate_of_frac_zero t1 hfrac hfin] at hnext hval
  rw [index1, hi] at ht1
  refine ⟨tk, t1, _, _, hi ▸ htk, ht1, hnext, rfl, hval, hp1, fun hword => ?_, fun htk hpos => ?_⟩
  · by_cases htk : tk = 0x80000000
    · rw [htk, hword.resolve_left (absurd htk)]
      decide
    · exact (add_zero_word hfin (val_eq_zero_iff.1 hp1)).2 htk
  · rw [htk, hpos]
    decide

/-- Settles O26: NEXT answers the sample at the phase. -/
theorem samplesStayInRange : Obligations.SamplesStayInRange := by
  intro s hs
  obtain ⟨out, hout, hnext⟩ := next_spec hs
  exact ⟨_, out, hnext, rfl, sample_range hs.inv hout⟩

/-! ### Finite answers (R96) -/

/-- The one response a command appends is what it answers. -/
theorem response_eq_of_append {rs : List Response} {st : Status} {d data : Word}
    (h : rs ++ [⟨st, d⟩] = rs ++ [⟨.ok, data⟩]) : st = .ok ∧ d = data := by
  simpa using h

theorem fin_of_next_ok {s t : State} {data : Word} (h : s.Inv) (ht : exec .next s = .next t)
    (hdata : t.responses = s.responses ++ [⟨.ok, data⟩]) : fin data = true := by
  obtain ⟨-, rfl⟩ | ⟨-, -, -, out, hout, rfl⟩ := execNext_cases ht
  · cases (response_eq_of_append hdata).1
  · obtain ⟨-, rfl⟩ := response_eq_of_append hdata
    exact (sample_range h hout).1

theorem fin_of_rd_ok {idx : BitVec 4} {r : ReadReg} {s t : State} {data : Word} (hr : readRegOf idx = some r)
    (hfin : fin (readReg r s) = true) (ht : exec (.rd idx) s = .next t)
    (hdata : t.responses = s.responses ++ [⟨.ok, data⟩]) : fin data = true := by
  obtain ⟨-, rfl⟩ | ⟨-, -, -, -, rfl⟩ | ⟨r', hr', -, rfl⟩ := execRd_cases ht
  · cases (response_eq_of_append hdata).1
  · cases (response_eq_of_append hdata).1
  · obtain ⟨-, rfl⟩ := response_eq_of_append hdata
    obtain rfl := Option.some.inj (hr'.symm.trans hr)
    exact hfin

theorem fin_of_resolve_ok {std : BitVec 16} {c1 c0 : BitVec 8} {s t : State} {data : Word}
    (ht : exec (.resolve std c1 c0) s = .next t) (hdata : t.responses = s.responses ++ [⟨.ok, data⟩]) :
    fin data = true := by
  obtain ⟨-, rfl⟩ | ⟨-, -, -, rfl⟩ | ⟨h, p, -, -, rfl⟩ := execResolve_cases ht
  · cases (response_eq_of_append hdata).1
  · cases (response_eq_of_append hdata).1
  · obtain ⟨-, rfl⟩ := response_eq_of_append hdata
    exact (lutRead_ok s.hw h p).1

theorem fin_of_rdtab_ok {tidx : BitVec 16} {s t : State} {data : Word}
    (ht : exec (.rdtab tidx) s = .next t) (hdata : t.responses = s.responses ++ [⟨.ok, data⟩]) :
    fin data = true := by
  obtain ⟨-, rfl⟩ | ⟨w, hread, rfl⟩ := execRdtab_cases ht
  · cases (response_eq_of_append hdata).1
  · obtain ⟨-, rfl⟩ := response_eq_of_append hdata
    exact (memRead_ok hread).1

/-- Settles O28: the answer is a sample, a register of R21 or an entry of a valid table. -/
theorem answersAreFinite : Obligations.AnswersAreFinite := by
  intro i s t data h ht hdata hi
  obtain ⟨hsr, hphase, hinc⟩ := h.finite
  obtain rfl | rfl | rfl | rfl | ⟨std, c1, c0, rfl⟩ | ⟨tidx, rfl⟩ := hi
  · exact fin_of_next_ok h ht hdata
  · exact fin_of_rd_ok (r := .sampleRate) rfl hsr ht hdata
  · exact fin_of_rd_ok (r := .phase) rfl hphase ht hdata
  · exact fin_of_rd_ok (r := .increment) rfl hinc ht hdata
  · exact fin_of_resolve_ok ht hdata
  · exact fin_of_rdtab_ok ht hdata

end Sys2Proof.Machine
end

section
/-! The proofs of the statements of 42_note_registry: RESOLVE (R97 to R103) and what SETN makes of its answers
(R104, R105). -/

namespace Sys2Proof.Machine

open F32

/-! ### The names (30_encoding R57) -/

/-- The twelve names of R57 by pitch class, A to G#, each as the number of its two codes. -/
def noteNames : Vector Nat 12 :=
  #v[0x0041, 0x2341, 0x0042, 0x0043, 0x2343, 0x0044, 0x2344, 0x0045, 0x0046, 0x2346, 0x0047, 0x2347]

section
variable {std : BitVec 16} {c1 c0 : BitVec 8}

/-- The pitch class is that of the first name that matches. -/
theorem pitchClass_eq_foldr :
    pitchClass c0 c1 = (List.finRange 12).foldr
      (fun p rest => if c1 ++ c0 = BitVec.ofNat 16 noteNames[p] then some p else rest) none := rfl

theorem name_eq_iff {p : Fin 12} :
    c1 ++ c0 = BitVec.ofNat 16 noteNames[p] ↔ c1.toNat * 2 ^ 8 + c0.toNat = noteNames[p] := by
  have hlt : noteNames[p] < 2 ^ 16 := by revert p; decide
  rw [← BitVec.toNat_inj, toNat_append_eq, BitVec.toNat_ofNat, Nat.mod_eq_of_lt hlt]

theorem pitchClass_of_name {p : Fin 12} (h : c1.toNat * 2 ^ 8 + c0.toNat = noteNames[p]) :
    pitchClass c0 c1 = some p := by
  rw [pitchClass_eq_foldr, name_eq_iff.2 h]
  clear h
  revert p
  decide

theorem pitchClass_eq_none (h : c1.toNat * 2 ^ 8 + c0.toNat ∉ noteNames.toList) : pitchClass c0 c1 = none := by
  have hne (p : Fin 12) : ¬ c1 ++ c0 = BitVec.ofNat 16 noteNames[p] := fun hp =>
    h (name_eq_iff.1 hp ▸ by simp)
  simp only [pitchClass_eq_foldr, hne, if_false, List.foldr_fixed]

theorem standardOf_eq_none_of_toNat (h440 : std.toNat ≠ 440) (h432 : std.toNat ≠ 432) : standardOf std = none :=
  standardOf_eq_none.2 ⟨mt (congrArg BitVec.toNat) h440, mt (congrArg BitVec.toNat) h432⟩

theorem standardOf_of_toNat_440 (h : std.toNat = 440) : standardOf std = some .hz440 :=
  standardOf_eq_some.2 (.inl ⟨BitVec.eq_of_toNat_eq h, rfl⟩)

theorem standardOf_of_toNat_432 (h : std.toNat = 432) : standardOf std = some .hz432 :=
  standardOf_eq_some.2 (.inr ⟨BitVec.eq_of_toNat_eq h, rfl⟩)

end

/-! ### RESOLVE (R97, R103) -/

theorem toNat_encode_resolve (std : BitVec 16) (c1 c0 : BitVec 8) :
    (encode (.resolve std c1 c0)).toNat = 0x4000000000 + std.toNat * 2 ^ 16 + c1.toNat * 2 ^ 8 + c0.toNat := by
  rw [Laws.EncodingFields.resolve std c1 c0]
  dsimp only
  omega

/-- Settles O29: by the standard, then by the pitch class of the name. -/
theorem resolveFollowsItsPseudocode : Obligations.ResolveFollowsItsPseudocode := by
  intro std c1 c0 s
  refine ⟨toNat_encode_resolve std c1 c0, fun h440 h432 => ?_, fun hstd hname => ?_,
    fun p hname => ⟨fun hstd => ?_, fun hstd => ?_⟩, fun _ _ hrsv => answersIllegal_of_rsv hrsv s⟩
  · exact exec_resolve_of_unsupported (standardOf_eq_none_of_toNat h440 h432) s
  · obtain hstd | hstd := hstd
    · exact exec_resolve_of_unknown (standardOf_of_toNat_440 hstd) (pitchClass_eq_none hname) s
    · exact exec_resolve_of_unknown (standardOf_of_toNat_432 hstd) (pitchClass_eq_none hname) s
  · exact exec_resolve_of_note (standardOf_of_toNat_440 hstd) (pitchClass_of_name hname) s
  · exact exec_resolve_of_note (standardOf_of_toNat_432 hstd) (pitchClass_of_name hname) s

/-- An answer that is not the hard error leaves ERR. -/
theorem respond_eq_of_ne_invalidArgument {st : Status} (h : st ≠ .invalidArgument) (data : Word) (s : State) :
    respond st data s = { s with err := s.err || decide (st = .invalidArgument),
                                 responses := s.responses ++ [⟨st, data⟩] } := by
  rw [decide_eq_false h, Bool.or_false, respond]

theorem raiseArgument_eq (c : Cause) (s : State) :
    raiseArgument c s = { s with err := s.err || decide (Status.invalidArgument = .invalidArgument),
                                 responses := s.responses ++ [⟨.invalidArgument, c.code⟩] } := by
  rw [decide_eq_true rfl, Bool.or_true]
  rfl

/-- Settles O30: neither check looks at the state, and the table is part of the configuration. -/
theorem resolveIsPure : Obligations.ResolveIsPure := by
  intro std c1 c0 hw
  cases hstd : standardOf std with
  | none =>
    exact ⟨⟨.invalidArgument, 4⟩, fun s _ =>
      (exec_resolve_of_unsupported hstd s).trans (congrArg _ (raiseArgument_eq _ s))⟩
  | some h =>
    cases hname : pitchClass c0 c1 with
    | none =>
      exact ⟨⟨.unknownNote, defaultFreq⟩, fun s _ =>
        (exec_resolve_of_unknown hstd hname s).trans (congrArg _ (respond_eq_of_ne_invalidArgument (st := .unknownNote) nofun _ s))⟩
    | some p =>
      refine ⟨⟨.ok, lutRead hw h p⟩, ?_⟩
      rintro s rfl
      exact (exec_resolve_of_note hstd hname s).trans
        (congrArg _ (respond_eq_of_ne_invalidArgument (st := .ok) nofun _ s))

/-! ### What SETN makes of the answer (R104, R105) -/

theorem defaultFreq_ok : fin defaultFreq = true ∧ 0 < val defaultFreq :=
  (fin_and_val_pos_iff _).2 (by decide)

section
variable {std : BitVec 16} {c1 c0 : BitVec 8} {s t : State} {st : Status} {freq : Word}
  (ht : exec (.resolve std c1 c0) s = .next t) (hresp : t.responses = s.responses ++ [⟨st, freq⟩])
  (hst : st = .ok ∨ st = .unknownNote)
include ht hresp hst

/-- A frequency is answered alone, and is a note of the table or the default. -/
theorem resolved_frequency : t = respond st freq s ∧ fin freq = true ∧ 0 < val freq := by
  obtain ⟨-, rfl⟩ | ⟨_, -, -, rfl⟩ | ⟨h, p, -, -, rfl⟩ := execResolve_cases ht
  · cases List.singleton_inj.1 (List.append_cancel_left hresp)
    exact absurd hst (by decide)
  · cases List.singleton_inj.1 (List.append_cancel_left hresp)
    exact ⟨rfl, defaultFreq_ok⟩
  · cases List.singleton_inj.1 (List.append_cancel_left hresp)
    obtain ⟨hfin, hpos⟩ := lutRead_ok s.hw h p
    exact ⟨rfl, hfin, (isPos_iff _).1 hpos⟩

/-- After a frequency, SETN of a ready block overflows or sets the increment. -/
theorem setn_of_resolved (hs : s.Ready) :
    (increment s.hw.N freq s.sr = none → setn std c1 c0 s = .next (raiseArgument .incrementOverflow t)) ∧
    (∀ q, increment s.hw.N freq s.sr = some q → setn std c1 c0 s = .next (respond .ok 0 { t with inc := q })) := by
  obtain ⟨rfl, hfin, hpos⟩ := resolved_frequency ht hresp hst
  obtain ⟨hsetn, -⟩ := setnIsResolveThenSetf std c1 c0 s _ st freq ht hresp
  have hready : (respond st freq s).Ready := ⟨(exec_effect ht).inv hs.inv, hs.configured⟩
  rw [hsetn hst]
  exact ⟨exec_setf_of_overflow hready ⟨hfin, hpos.le⟩, fun _ => exec_setf_of_increment hready ⟨hfin, hpos.le⟩⟩

end

/-- Settles O31: a valid table's notes and the default are finite and above 0, which passes SETF's check. -/
theorem resolvedFrequenciesAreAccepted : Obligations.ResolvedFrequenciesAreAccepted := by
  intro std c1 c0 s t st freq ht hresp hst
  obtain ⟨-, hfin, hpos⟩ := resolved_frequency ht hresp hst
  refine ⟨hfin, hpos, fun hs => ?_⟩
  obtain ⟨hover, hset⟩ := setn_of_resolved ht hresp hst hs
  cases hq : increment s.hw.N freq s.sr with
  | none => exact ⟨_, hover hq, .inr (lastResponse_raiseArgument _ _)⟩
  | some q => exact ⟨_, hset q hq, .inl (lastResponse_respond _ _ _)⟩

/-! ### The worked note (R105) -/

/-- The block of R105: INIT 44100.0 from reset. -/
def block44100 : State := respond .ok 0 (construct 0x472C4400 State.reset)

theorem exec_init_44100 : exec (.init 0x472C4400) State.reset = .next block44100 :=
  exec_init_of_accepted ((fin_and_val_pos_iff _).2 (by decide)) _

theorem accept_init_44100 : accept (.command 0x10472C4400) State.reset = .next block44100 :=
  (accept_command_of_decode (i := .init 0x472C4400) (by decide) _).trans exec_init_44100

theorem block44100_ready : block44100.Ready :=
  ⟨(exec_effect exec_init_44100).inv resetMeetsTheInvariant, rfl⟩

theorem increment_of_440 : increment block44100.hw.N 0x43DC0000 block44100.sr = some 0x3F2377EE := by
  decide +kernel

/-- SETN of any note that resolves to 440.0. -/
theorem setn_of_440 {std : BitVec 16} {c1 c0 : BitVec 8} {st : Status}
    (hresolve : exec (.resolve std c1 c0) block44100 = .next (respond st 0x43DC0000 block44100))
    (hst : st = .ok ∨ st = .unknownNote) :
    ∃ t, andThen (accept (.command 0x10472C4400) State.reset) (setn std c1 c0) = .next t ∧
      t.inc = 0x3F2377EE ∧ t.err = false := by
  obtain ⟨-, hset⟩ := setn_of_resolved hresolve rfl hst block44100_ready
  rw [accept_init_44100, andThen_next]
  exact ⟨_, hset _ increment_of_440, rfl, rfl⟩

/-- Settles O53: A under 440 is 440.0 in the table, and the unknown H falls back to it. -/
theorem setnWorkedExample : Obligations.SetnWorkedExample :=
  ⟨setn_of_440 (exec_resolve_of_note (h := .hz440) (p := 0) (by decide) (by decide) _) (.inl rfl),
    setn_of_440 (exec_resolve_of_unknown (h := .hz432) (by decide) (by decide) _) (.inr rfl)⟩

end Sys2Proof.Machine
end

section
/-! The proofs of the statements of 43_sink_and_sequencer: RD (R107, R110), the idle block (R111), and the host's
sequencer, its counts of samples and its endings (R114 to R122). -/

namespace Sys2Proof.Machine

/-- Settles O10: with nothing pending the step has no event to accept. -/
theorem idleStepHoldsState : Obligations.IdleStepHoldsState := by
  intro s h
  simp only [step, h]

/-! ### RD (R107) -/

theorem exec_rd_of_readable {idx : BitVec 4} {r : ReadReg} {s : State} (hr : readRegOf idx = some r)
    (hn : r.needsOscillator = true → s.cfg = true) : exec (.rd idx) s = .next (respond .ok (readReg r s) s) := by
  have hcheck : (r.needsOscillator && !s.cfg) = false := by simpa using hn
  simp [exec, execRd, hr, hcheck]

theorem exec_rd_of_reserved {idx : BitVec 4} (hr : readRegOf idx = none) (s : State) :
    exec (.rd idx) s = .next (raiseIllegal s) := by
  simp only [exec, execRd, hr]

/-- RD answers in every state. -/
theorem exec_rd_completes (idx : BitVec 4) (s : State) : ∃ t, exec (.rd idx) s = .next t := by
  cases hr : readRegOf idx with
  | none => exact ⟨_, exec_rd_of_reserved hr s⟩
  | some r =>
    by_cases hn : r.needsOscillator = true → s.cfg = true
    · exact ⟨_, exec_rd_of_readable hr hn⟩
    · obtain ⟨hn, hc⟩ := Classical.not_imp.1 hn
      exact ⟨_, exec_rd_of_unconfigured hr hn (Bool.eq_false_iff.2 hc)⟩

theorem readRegOf_eq_none {idx : BitVec 4} (h : 6 < idx.toNat) : readRegOf idx = none := by
  revert idx; decide

/-- RD's word runs RD; with a reserved index it selects no command, which answers alike (log 6). -/
theorem runCommand_encode_rd (idx : BitVec 4) (s : State) : runCommand (encode (.rd idx)) s = exec (.rd idx) s := by
  by_cases hidx : idx.toNat ≤ 6
  · exact runCommand_encode (i := .rd idx) (decide_eq_true hidx) s
  · have hword : (encode (.rd idx)).toNat = 0x5000000000 + idx.toNat := Laws.EncodingFields.rd idx
    have hillegal : AnswersIllegal (encode (.rd idx)) s := by
      refine answersIllegal_of_decode_ne_ok (fun i hi => ?_) s
      have := fields_of_decode_ok hi
      omega
    exact hillegal.trans (exec_rd_of_reserved (readRegOf_eq_none (by omega)) s).symm

theorem toNat_readReg_status (s : State) : (readReg .status s).toNat = s.err.toNat * 2 + s.cfg.toNat := by
  rw [readReg]
  cases s.cfg <;> cases s.err <;> rfl

theorem readRegOf_of_toNat {idx : BitVec 4} (k : BitVec 4) {r : ReadReg} (h : idx.toNat = k.toNat)
    (hk : readRegOf k = some r) : readRegOf idx = some r :=
  BitVec.eq_of_toNat_eq h ▸ hk

/-- Settles O32: by the register that each index names, whether it needs an oscillator, and the word RD decodes
from. -/
theorem rdFollowsItsPseudocode : Obligations.RdFollowsItsPseudocode := by
  intro idx s
  refine ⟨Laws.EncodingFields.rd idx,
    fun h => exec_rd_of_readable (r := .channels) (readRegOf_of_toNat 0 h rfl) nofun,
    fun h => ⟨_, toNat_readReg_status s, exec_rd_of_readable (readRegOf_of_toNat 3 h rfl) nofun⟩,
    fun h => ⟨_, toNat_readReg_tableLen s, exec_rd_of_readable (readRegOf_of_toNat 6 h rfl) nofun⟩,
    fun h hc => ?_, fun hc => ⟨fun h => ?_, fun h => ?_, fun h => ?_, fun h => ?_⟩, fun c hop hrsv => ?_⟩
  · obtain h | h | h | h := h
    · exact exec_rd_of_unconfigured (r := .sampleRate) (readRegOf_of_toNat 1 h rfl) rfl hc
    · exact exec_rd_of_unconfigured (r := .remaining) (readRegOf_of_toNat 2 h rfl) rfl hc
    · exact exec_rd_of_unconfigured (r := .phase) (readRegOf_of_toNat 4 h rfl) rfl hc
    · exact exec_rd_of_unconfigured (r := .increment) (readRegOf_of_toNat 5 h rfl) rfl hc
  · exact exec_rd_of_configured (r := .sampleRate) (readRegOf_of_toNat 1 h rfl) hc
  · exact exec_rd_of_configured (r := .remaining) (readRegOf_of_toNat 2 h rfl) hc
  · exact exec_rd_of_configured (r := .phase) (readRegOf_of_toNat 4 h rfl) hc
  · exact exec_rd_of_configured (r := .increment) (readRegOf_of_toNat 5 h rfl) hc
  · refine answersIllegal_of_decode_ne_ok (fun i hi => ?_) s
    have := fields_of_decode_ok hi
    omega

/-! ### RD and the samples of a run (R110)

RD leaves the oscillator, and two runs from the same oscillator deliver the same samples, whatever ERR and the
earlier responses are. -/

theorem SameOscillator.symm {s s' : State} (h : SameOscillator s s') : SameOscillator s' s :=
  ⟨h.hw.symm, h.cfg.symm, h.sr.symm, h.phase.symm, h.inc.symm⟩

/-- The same oscillator, and the same responses sent since those in `rs` and `rs'`. -/
structure SameSince (rs rs' : List Response) (s s' : State) : Prop extends SameOscillator s s' where
  since : ∃ sent, s.responses = rs ++ sent ∧ s'.responses = rs' ++ sent

theorem SameOscillator.sameSince {s s' : State} (h : SameOscillator s s') :
    SameSince s.responses s'.responses s s' :=
  ⟨h, [], by simp, by simp⟩

section
variable {rs rs' : List Response} {s s' : State}

theorem SameSince.since_concat (h : SameSince rs rs' s s') (r : Response) :
    ∃ sent, s.responses ++ [r] = rs ++ sent ∧ s'.responses ++ [r] = rs' ++ sent := by
  obtain ⟨sent, hs, hs'⟩ := h.since
  exact ⟨sent ++ [r], by simp [hs], by simp [hs']⟩

/-- When one response has been sent since, it is the same one. -/
theorem SameSince.lastResponse_eq (h : SameSince rs rs' s s') {r : Response} (hs : s.responses = rs ++ [r]) :
    lastResponse s = lastResponse s' := by
  obtain ⟨sent, hsent, hs'⟩ := h.since
  obtain rfl : [r] = sent := List.append_cancel_left (hs.symm.trans hsent)
  rw [lastResponse, lastResponse, hs, hs', List.getLast?_concat, List.getLast?_concat]

end

theorem sameSince_congruence (rs rs' : List Response) : Congruence (SameSince rs rs') where
  hw h := h.hw
  cfg h := h.cfg
  shown h _ := ⟨h.sr, h.phase, h.inc⟩
  respond h _ _ := ⟨⟨h.hw, h.cfg, h.sr, h.phase, h.inc⟩, h.since_concat _⟩
  raise h _ _ := ⟨⟨h.hw, h.cfg, h.sr, h.phase, h.inc⟩, h.since_concat _⟩
  construct h _ := ⟨⟨h.hw, rfl, rfl, rfl, rfl⟩, h.since⟩
  clearCfg h := ⟨⟨h.hw, rfl, h.sr, h.phase, h.inc⟩, h.since⟩
  setInc h _ := ⟨⟨h.hw, h.cfg, h.sr, h.phase, rfl⟩, h.since⟩
  setPhase h _ := ⟨⟨h.hw, h.cfg, h.sr, rfl, h.inc⟩, h.since⟩

theorem sampleOf_of_decode_ne_next {c : CommandWord} (h : decode c ≠ .ok .next) (s : State) : sampleOf c s = [] := by
  unfold sampleOf
  split
  · exact absurd ‹_› h
  · rfl

theorem sampleOf_congr {s s' : State} (h : lastResponse s = lastResponse s') (c : CommandWord) :
    sampleOf c s = sampleOf c s' := by
  simp only [sampleOf, h]

/-- A command answers the same sample from two states with the same oscillator. -/
theorem SameOscillator.runCommand {s s' : State} (h : SameOscillator s s') (c : CommandWord) :
    Simulates (fun t t' => SameOscillator t t' ∧ sampleOf c t = sampleOf c t')
      (runCommand c s) (runCommand c s') := by
  by_cases hd : decode c = .ok (.rd 3)
  · have run (u : State) : Machine.runCommand c u = .next (respond .ok (statusWord u.cfg u.err) u) :=
      accept_command_of_decode hd u
    rw [run, run]
    exact .next ⟨⟨h.hw, h.cfg, h.sr, h.phase, h.inc⟩,
      by simp only [sampleOf_of_decode_ne_next (hd.symm ▸ nofun : decode c ≠ .ok .next)]⟩
  · intro t ht
    obtain ⟨t', ht', hsince⟩ := (sameSince_congruence _ _).runCommand h.sameSince (absurd · hd) t ht
    obtain ⟨r, hresp, -⟩ := runCommand_answers ht
    exact ⟨t', ht', hsince.toSameOscillator, sampleOf_congr (hsince.lastResponse_eq hresp) c⟩

theorem samplesOf_command_of_next {c : CommandWord} {s t : State} (h : runCommand c s = .next t)
    (es : List PortEvent) : samplesOf (.command c :: es) s = sampleOf c t ++ samplesOf es t := by
  simp only [samplesOf, h]

theorem samplesOf_command_of_stop {c : CommandWord} {s : State} (h : ∀ t, runCommand c s ≠ .next t)
    (es : List PortEvent) : samplesOf (.command c :: es) s = [] := by
  rw [samplesOf]
  split
  · exact absurd ‹_› (h _)
  · rfl
  · rfl

/-- A run's samples depend on the oscillator alone. -/
theorem SameOscillator.samplesOf_eq {s s' : State} (h : SameOscillator s s') (es : List PortEvent) :
    samplesOf es s = samplesOf es s' := by
  induction es generalizing s s' with
  | nil => rfl
  | cons e es ih =>
    cases e with
    | reset => exact ih ⟨h.hw, rfl, rfl, rfl, rfl⟩
    | command c =>
      by_cases hrun : ∃ t, Machine.runCommand c s = .next t
      · obtain ⟨t, ht⟩ := hrun
        obtain ⟨t', ht', hosc, hsample⟩ := h.runCommand c t ht
        rw [samplesOf_command_of_next ht, samplesOf_command_of_next ht', hsample, ih hosc]
      · have hstop : ∀ t, Machine.runCommand c s ≠ .next t := not_exists.1 hrun
        have hstop' : ∀ t, Machine.runCommand c s' ≠ .next t := fun t' ht' =>
          have ⟨t, ht, _⟩ := h.symm.runCommand c t' ht'
          hstop t ht
        rw [samplesOf_command_of_stop hstop, samplesOf_command_of_stop hstop']

theorem samplesOf_cons_congr {es es' : List PortEvent} (h : ∀ t, samplesOf es t = samplesOf es' t) (e : PortEvent)
    (s : State) : samplesOf (e :: es) s = samplesOf (e :: es') s := by
  cases e with
  | reset => exact h _
  | command c => simp only [samplesOf, h]

/-- RD answers in every state, and leaves the oscillator. -/
theorem runCommand_rd (idx : BitVec 4) (s : State) :
    ∃ t, runCommand (encode (.rd idx)) s = .next t ∧ SameOscillator s t := by
  obtain ⟨t, ht⟩ := exec_rd_completes idx s
  refine ⟨t, (runCommand_encode_rd idx s).trans ht, ?_⟩
  cases exec_effect ht <;> exact ⟨rfl, rfl, rfl, rfl, rfl⟩

theorem decode_encode_rd_ne_next (idx : BitVec 4) : decode (encode (.rd idx)) ≠ .ok .next := by
  revert idx; decide

/-- Settles O33, by induction on the events before the RD. -/
theorem rdLeavesTheSamples : Obligations.RdLeavesTheSamples := by
  intro before after idx s
  induction before generalizing s with
  | nil =>
    obtain ⟨t, ht, hosc⟩ := runCommand_rd idx s
    calc samplesOf (.command (encode (.rd idx)) :: after) s
        = sampleOf (encode (.rd idx)) t ++ samplesOf after t := samplesOf_command_of_next ht after
      _ = samplesOf after t := by rw [sampleOf_of_decode_ne_next (decode_encode_rd_ne_next idx), List.nil_append]
      _ = samplesOf after s := hosc.symm.samplesOf_eq after
  | cons e before ih => exact samplesOf_cons_congr ih e s

/-! ### Counts of samples (R116, R118, R120) -/

/-- Settles O54: the floor's two bounds, and that a length at or above 0 is a count of samples. -/
theorem segmentLengthIsRounded : Obligations.SegmentLengthIsRounded := by
  intro d r h0
  have hfloor : roundedLength d r = ⌊d * r + 1 / 2⌋ := rfl
  have hle := Int.floor_le (d * r + 1 / 2)
  have hlt := Int.lt_floor_add_one (d * r + 1 / 2)
  have hcount : ((Duration.seconds d).sampleCount r : ℤ) = roundedLength d r :=
    Int.toNat_of_nonneg (hfloor ▸ Int.floor_nonneg.2 (by positivity))
  have hcount' : ((Duration.seconds d).sampleCount r : ℚ) = (roundedLength d r : ℚ) := by exact_mod_cast hcount
  rw [← hfloor, ← hcount'] at hle hlt
  refine ⟨hle, by linarith, fun K => ?_⟩
  rw [inBand, decide_eq_true_iff, hcount]
  omega

theorem emitted_iterate_start (total k : Nat) :
    NoteState.emitted^[k] (NoteState.start total) = if k < total then .sounding k total else .idle := by
  induction k with
  | zero => cases total <;> rfl
  | succ k ih =>
    rw [Function.iterate_succ_apply', ih]
    split
    · rfl
    · exact (if_neg (by omega)).symm

/-- Settles O55: by the state after `k` emitted samples. -/
theorem noteEndsAtItsCount : Obligations.NoteEndsAtItsCount := by
  intro total k
  rw [emitted_iterate_start]
  refine ⟨fun h => ?_, fun h => if_neg h.not_gt⟩
  rw [if_pos h]
  exact ⟨rfl, rfl⟩

/-! ### The commands that a note issues -/

/-- In a state of R21 every command completes (60_exceptions R140). -/
theorem exec_completes (i : Instr) {s : State} (h : s.Inv) : ∃ t, exec i s = .next t := by
  cases i with
  | init w =>
    by_cases hw : F32.fin w = true ∧ 0 < F32.val w
    · exact ⟨_, exec_init_of_accepted hw s⟩
    · exact ⟨_, exec_init_of_rejected hw s⟩
  | setf w =>
    cases hc : s.cfg with
    | false => exact ⟨_, exec_setf_of_unconfigured w hc⟩
    | true =>
      obtain ⟨t, ht, -⟩ := frequencyCheckRule w s ⟨h, hc⟩
      exact ⟨t, ht⟩
  | next =>
    obtain ⟨t, ht, -⟩ := execNext_keeps h
    exact ⟨t, ht⟩
  | resolve std c1 c0 =>
    obtain ⟨r, hr⟩ := resolveIsPure std c1 c0 s.hw
    exact ⟨_, hr s rfl⟩
  | rd idx => exact exec_rd_completes idx s
  | rdtab tidx =>
    cases hw : memRead s.hw tidx.toNat with
    | none => exact ⟨_, exec_rdtab_of_no_entry (memRead_eq_none.1 hw)⟩
    | some w => exact ⟨_, exec_rdtab_of_memRead hw⟩

/-- In a state of R21 every command word completes and keeps R21. -/
theorem runCommand_keeps (c : CommandWord) {s : State} (h : s.Inv) : ∃ t, runCommand c s = .next t ∧ t.Inv := by
  have completes : ∃ t, runCommand c s = .next t := by
    unfold runCommand
    split
    · exact exec_completes _ h
    · exact ⟨_, rfl⟩
  obtain ⟨t, ht⟩ := completes
  exact ⟨t, ht, (runCommand_effect ht).inv h⟩

theorem prepare_keeps (start : NoteStart) {s : State} (h : s.Inv) : ∃ t, prepare start s = .next t ∧ t.Inv := by
  cases start with
  | fresh w => exact runCommand_keeps _ h
  | shared => exact ⟨s, rfl, h⟩

/-- A failed INIT leaves a fresh note without an oscillator (70_reset_and_hazards R146). -/
theorem not_prepared_of_rejected {w : Word} (hw : ¬ (F32.fin w = true ∧ 0 < F32.val w)) {s t : State}
    (h : prepare (.fresh w) s = .next t) : prepared (.fresh w) (lastResponse t) = false := by
  have hinit : prepare (.fresh w) s = exec (.init w) s := runCommand_encode rfl s
  rw [hinit, exec_init_of_rejected hw] at h
  obtain rfl := Host.Outcome.next.inj h
  rw [lastResponse_raiseArgument]
  rfl

/-! ### Playing (R114, R117, R120, R122) -/

/-- What playing the note `n` can come to, when the sink has taken `out` before. -/
structure NotePlayed (n : Note) (out : List Word) (p : Played) : Prop where
  inv : p.state.Inv
  length_le : p.samples.length ≤ out.length + n.count
  finished : p.ended = .finished → p.samples.length = out.length + n.count
  sink : ∀ m, n.sinkTakes = some m → p.samples.length ≤ out.length + m ∧
    (p.ended = .sinkFailed → p.samples.length = out.length + m)
  sinkFailed : p.ended = .sinkFailed → n.sinkTakes ≠ none
  rejected : ∀ w, n.start = .fresh w → ¬ (F32.fin w = true ∧ 0 < F32.val w) →
    p.ended = .hardError ∧ p.samples = out

/-- A note that a hard error ends before its segment. -/
theorem NotePlayed.hardError (n : Note) (out : List Word) {s : State} (h : s.Inv) :
    NotePlayed n out ⟨s, out, .hardError⟩ :=
  ⟨h, by simp, nofun, fun _ _ => ⟨by simp, nofun⟩, nofun, fun _ _ _ => ⟨rfl, rfl⟩⟩

/-- By the note's commands in their order, each of which completes and keeps R21, then the segment. -/
theorem playNote_spec (std : BitVec 16) (n : Note) (out : List Word) {s : State} (h : s.Inv) :
    ∃ p, playNote std n out s = .next p ∧ NotePlayed n out p := by
  obtain ⟨s1, hresolve, h1⟩ := runCommand_keeps (encode (.resolve std n.c1 n.c0)) h
  obtain ⟨s2, hprepare, h2⟩ := prepare_keeps n.start h1
  cases hj : setnSecond (lastResponse s1) with
  | none => exact ⟨_, by simp only [playNote, hresolve, hj], .hardError n out h1⟩
  | some j =>
    cases hprepared : prepared n.start (lastResponse s2) with
    | false =>
      exact ⟨_, by simp only [playNote, hresolve, hj, hprepare, hprepared, Bool.false_eq_true, if_false],
        .hardError n out h2⟩
    | true =>
      obtain ⟨s3, hsetf, h3⟩ := runCommand_keeps (encode j) h2
      obtain ⟨p, hdraw, hinv, hle, hfinished, hsink, hfailed⟩ := draw_spec n.count n.sinkTakes out s3 h3
      refine ⟨p, by simp only [playNote, hresolve, hj, hprepare, hprepared, if_true, hsetf, hdraw], hinv, hle,
        hfinished, hsink, hfailed, fun w hstart hw => ?_⟩
      rw [hstart] at hprepare hprepared
      exact absurd hprepared (Bool.eq_false_iff.1 (not_prepared_of_rejected hw hprepare))

/-- Settles O56: by what playing a note can come to. -/
theorem playingANoteIsBounded : Obligations.PlayingANoteIsBounded := by
  intro std n out s h
  obtain ⟨p, hp, hplayed⟩ := playNote_spec std n out h
  exact ⟨p, hp, hplayed.inv, hplayed.length_le, hplayed.finished, hplayed.sink, hplayed.rejected⟩

/-- The next note is played after one that finished, or that the host skips when the sink fails (R114). -/
def GoesOn (e : NoteEnd) (react : SinkReaction) : Prop := e = .finished ∨ e = .sinkFailed ∧ react = .skipNote

section
variable {std : BitVec 16} {n : Note} {rest : List Note} {out : List Word} {s : State} {p : Played}
  (hp : playNote std n out s = .next p)
include hp

theorem playSequence_cons_of_goesOn (h : GoesOn p.ended n.react) :
    playSequence std (n :: rest) out s = playSequence std rest p.samples p.state := by
  obtain hended | ⟨hended, hreact⟩ := h
  · simp only [playSequence, hp, hended]
  · simp only [playSequence, hp, hended, hreact]

theorem playSequence_cons_of_not_goesOn (h : ¬ GoesOn p.ended n.react) :
    playSequence std (n :: rest) out s = .next p := by
  simp only [playSequence, hp]
  split
  · exact absurd (.inl ‹_›) h
  · exact absurd (.inr ⟨‹_›, ‹_›⟩) h
  · rfl
  · rfl

end

/-- Settles O60, by induction on the notes: each is bounded, and the sink's failure ends the sequence only where
the note says so. -/
theorem playingASequenceIsBounded : Obligations.PlayingASequenceIsBounded := by
  intro std notes
  induction notes with
  | nil => exact fun out s h => ⟨⟨s, out, .finished⟩, rfl, h, by simp, nofun⟩
  | cons n rest ih =>
    intro out s h
    obtain ⟨p, hp, hplayed⟩ := playNote_spec std n out h
    have hle := hplayed.length_le
    simp only [List.map_cons, List.sum_cons, List.exists_mem_cons_iff]
    by_cases hgo : GoesOn p.ended n.react
    · obtain ⟨q, hq, hinv, hlen, hfailed⟩ := ih p.samples p.state hplayed.inv
      exact ⟨q, (playSequence_cons_of_goesOn hp hgo).trans hq, hinv, by omega, fun he => .inr (hfailed he)⟩
    · refine ⟨p, playSequence_cons_of_not_goesOn hp hgo, hplayed.inv, by omega,
        fun he => .inl ⟨?_, hplayed.sinkFailed he⟩⟩
      cases hreact : n.react with
      | abortSequence => rfl
      | skipNote => exact absurd (.inr ⟨he, hreact⟩) hgo

end Sys2Proof.Machine
end

section
/-! The proofs of the statements of 60_exceptions: the statuses of each command (R131), the order of the checks
(R130), the precision of the errors (R133), and that no input stops the block (R140). -/

namespace Sys2Proof.Machine

/-! ### Which command answers which status (R131) -/

/-- The one response a command appends is what it answers, whatever its status. -/
theorem status_data_of_append {rs : List Response} {st st' : Status} {d d' : Word}
    (h : rs ++ [⟨st, d⟩] = rs ++ [⟨st', d'⟩]) : st = st' ∧ d = d' := by
  simpa using h

theorem readRegOf_ne_none {idx : BitVec 4} : idx.toNat ≤ 6 → readRegOf idx ≠ none := by
  revert idx; decide

/-- The rows of 10_state R24 that need CFG = 1. -/
theorem index_of_needsOscillator {idx : BitVec 4} {r : ReadReg} (hr : readRegOf idx = some r)
    (hn : r.needsOscillator = true) : idx = 1 ∨ idx = 2 ∨ idx = 4 ∨ idx = 5 := by
  have rows : ∀ idx : BitVec 4, (readRegOf idx).any ReadReg.needsOscillator = true →
      idx = 1 ∨ idx = 2 ∨ idx = 4 ∨ idx = 5 := by decide
  exact rows idx (by rw [hr]; exact hn)

/-- Settles O40: by each command's outcomes, one status and one cause each. -/
theorem statusesByCommand : Obligations.StatusesByCommand := by
  intro i s t st data hwf h hresp
  cases i with
  | init w =>
    obtain ⟨-, rfl⟩ | ⟨-, rfl⟩ := execInit_cases h <;> obtain ⟨rfl, rfl⟩ := status_data_of_append hresp
    · exact .inl rfl
    · exact .inr ⟨rfl, rfl⟩
  | setf w =>
    obtain ⟨-, rfl⟩ | ⟨-, -, rfl⟩ | ⟨-, -, -, -, rfl⟩ | ⟨-, -, -, q, -, rfl⟩ := execSetf_cases h <;>
      obtain ⟨rfl, rfl⟩ := status_data_of_append hresp
    · exact .inr (.inr rfl)
    · exact .inr (.inl ⟨rfl, .inl rfl⟩)
    · exact .inr (.inl ⟨rfl, .inr rfl⟩)
    · exact .inl rfl
  | next =>
    obtain ⟨-, rfl⟩ | ⟨-, -, -, out, -, rfl⟩ := execNext_cases h <;>
      obtain ⟨rfl, rfl⟩ := status_data_of_append hresp
    · exact .inr rfl
    · exact .inl rfl
  | resolve std c1 c0 =>
    obtain ⟨-, rfl⟩ | ⟨_, -, -, rfl⟩ | ⟨_, _, -, -, rfl⟩ := execResolve_cases h <;>
      obtain ⟨rfl, rfl⟩ := status_data_of_append hresp
    · exact .inr (.inl ⟨rfl, rfl⟩)
    · exact .inr (.inr rfl)
    · exact .inl rfl
  | rd idx =>
    obtain ⟨hr, -⟩ | ⟨r, hr, hn, -, rfl⟩ | ⟨r, -, -, rfl⟩ := execRd_cases h
    · exact absurd hr (readRegOf_ne_none (of_decide_eq_true hwf))
    · obtain ⟨rfl, rfl⟩ := status_data_of_append hresp
      exact .inr ⟨rfl, index_of_needsOscillator hr hn⟩
    · obtain ⟨rfl, rfl⟩ := status_data_of_append hresp
      exact .inl rfl
  | rdtab tidx =>
    obtain ⟨-, rfl⟩ | ⟨w, -, rfl⟩ := execRdtab_cases h <;> obtain ⟨rfl, rfl⟩ := status_data_of_append hresp
    · exact .inr ⟨rfl, rfl⟩
    · exact .inl rfl

/-! ### The order of the checks (R130) -/

/-- Of the commands only RESOLVE answers UNKNOWN_NOTE (R131). -/
theorem eq_resolve_of_unknownNote {i : Instr} {s t : State} {data : Word} (hwf : i.wellFormed = true)
    (h : exec i s = .next t) (hresp : t.responses = s.responses ++ [⟨.unknownNote, data⟩]) :
    ∃ std c1 c0, i = .resolve std c1 c0 := by
  have hst := statusesByCommand i s t .unknownNote data hwf h hresp
  cases i with
  | resolve std c1 c0 => exact ⟨std, c1, c0, rfl⟩
  | init | setf | next | rd | rdtab => simp at hst

/-- RESOLVE looks at the name only under a supported standard (42_note_registry R99). -/
theorem standard_of_unknownNote {std : BitVec 16} {c1 c0 : BitVec 8} {s t : State} {data : Word}
    (h : exec (.resolve std c1 c0) s = .next t) (hlast : lastResponse t = some ⟨.unknownNote, data⟩) :
    std = 440 ∨ std = 432 := by
  obtain ⟨-, rfl⟩ | ⟨hz, hstd, -⟩ | ⟨hz, p, hstd, -⟩ := execResolve_cases h
  · simp at hlast
  · exact (standardOf_eq_some.1 hstd).imp And.left And.left
  · exact (standardOf_eq_some.1 hstd).imp And.left And.left

theorem decode_of_unknownNote {c : CommandWord} {s t : State} {data : Word} (h : runCommand c s = .next t)
    (hlast : lastResponse t = some ⟨.unknownNote, data⟩) :
    ∃ c1 c0, decode c = .ok (.resolve 440 c1 c0) ∨ decode c = .ok (.resolve 432 c1 c0) := by
  obtain ⟨i, hd, hi⟩ | ⟨e, -, rfl⟩ := runCommand_cases h
  · obtain ⟨r, hresp, -⟩ := exec_answers hi
    obtain rfl := Option.some.inj ((lastResponse_of_append hresp).symm.trans hlast)
    obtain ⟨std, c1, c0, rfl⟩ := eq_resolve_of_unknownNote (encode_of_decode_ok hd).1 hi hresp
    obtain rfl | rfl := standard_of_unknownNote hi hlast
    · exact ⟨c1, c0, .inl hd⟩
    · exact ⟨c1, c0, .inr hd⟩
  · simp at hlast

/-- Settles O39: by the outcome of the first check that fails, and the one command that can answer
UNKNOWN_NOTE. -/
theorem checkOrder : Obligations.CheckOrder := by
  obtain ⟨-, -, -, unconfigured⟩ := cfgFlagRule
  refine ⟨fun c e s hd => ?_, fun i s hc hi => ?_, fun w s hc hw => ?_, fun std c1 c0 s h440 h432 => ?_,
    fun c s t data => decode_of_unknownNote⟩
  · exact ⟨_, answersIllegal_of_decode_ne_ok (by simp [hd]) s, lastResponse_raiseIllegal s⟩
  · exact ⟨_, unconfigured i s hc hi, lastResponse_raiseNotConfigured s⟩
  · exact ⟨_, exec_setf_of_rejected hc hw, lastResponse_raiseArgument ..⟩
  · exact ⟨_, exec_resolve_of_unsupported (standardOf_eq_none.2 ⟨h440, h432⟩) s, lastResponse_raiseArgument ..⟩

/-! ### Errors are precise (R133) -/

/-- Only two effects answer an error: a failed INIT, and the raising of an error by another word. -/
theorem Effect.eq_of_error {s t : State} {d : Except DecodeError Instr} {st : Status} {data : Word}
    (he : Effect s d t) (hresp : t.responses = s.responses ++ [⟨st, data⟩]) (hst : st.setsErr = true) :
    (¬ (∃ w, d = .ok (.init w)) → t = { s with err := true, responses := t.responses }) ∧
    ((∃ w, d = .ok (.init w)) → t = { s with err := true, cfg := false, responses := t.responses }) := by
  cases he with
  | constructs | setsIncrement | advances =>
    obtain ⟨rfl, -⟩ := status_data_of_append hresp
    cases hst
  | answers _ hok =>
    obtain ⟨rfl, -⟩ := status_data_of_append hresp
    cases hok.symm.trans hst
  | initFails => exact ⟨fun hinit => absurd ⟨_, rfl⟩ hinit, fun _ => rfl⟩
  | raises hd => exact ⟨fun _ => rfl, fun ⟨w, hinit⟩ => absurd hinit (hd w)⟩

/-- Settles O38: by the two effects of a command that answer an error. -/
theorem errorsArePrecise : Obligations.ErrorsArePrecise :=
  fun _ _ _ st _ h hresp hst => (runCommand_effect h).eq_of_error hresp ((Status.setsErr_iff st).2 hst)

/-! ### No input stops the block (R140) -/

/-- Settles O44: an idle step and a reset never stop, and no command does in a state of R21. -/
theorem stepNeverStops : Obligations.StepNeverStops := by
  intro s h
  cases hport : s.port with
  | nil => exact ⟨s, idleStepHoldsState s hport⟩
  | cons e rest =>
    rw [step_of_port_cons hport]
    cases e with
    | reset => exact ⟨_, rfl⟩
    | command c =>
      obtain ⟨t, ht, -⟩ := runCommand_keeps c (s := { s with port := rest }) (h.congr rfl rfl rfl rfl rfl)
      exact ⟨t, ht⟩

end Sys2Proof.Machine
end

section
/-! The proofs of the statements of 70_reset_and_hazards: reset is a step without a response, and repeating it
changes nothing (R141). -/

namespace Sys2Proof.Machine

/-! ### Reset (R141) -/

theorem accept_reset (s : State) : accept .reset s = .next (resetBlock s) := rfl

@[simp] theorem resetBlock_resetBlock (s : State) : resetBlock (resetBlock s) = resetBlock s := rfl

/-- Each reset after the first one finds the block already reset. -/
theorem acceptAll_replicate_reset (s : State) (n : Nat) :
    acceptAll (List.replicate (n + 1) .reset) s = .next (resetBlock s) := by
  induction n generalizing s with
  | zero => rfl
  | succ n ih =>
    calc acceptAll (List.replicate (n + 1 + 1) .reset) s
        = acceptAll (List.replicate (n + 1) .reset) (resetBlock s) := rfl
      _ = .next (resetBlock s) := by rw [ih, resetBlock_resetBlock]

/-- ERR is sticky: a command can only raise it (10_state R20). -/
theorem runCommand_keeps_err {c : CommandWord} {s t : State} (h : runCommand c s = .next t) (hs : s.err = true) :
    t.err = true := by
  obtain ⟨r, -, herr, -, -⟩ := runCommand_answers h
  rw [herr, hs, Bool.true_or]

/-- Settles O14: the step accepts the pending reset, resets are idempotent, and a command keeps ERR. -/
theorem resetStep : Obligations.ResetStep :=
  ⟨fun _ _ hport => (step_of_port_cons hport).trans (accept_reset _),
    fun s n => (acceptAll_replicate_reset s n).trans (accept_reset s).symm,
    fun _ _ _ h hs => runCommand_keeps_err h hs⟩

end Sys2Proof.Machine
end
